-- ==== Sys2Proof/Word.lean ====
section
/-!
DEFINITION. The bit-vector types of the block, one name for each operand width of 20_memory.md rule R57, and the
direction of a session. Every value is unsigned (00_scope.md rule R8).
-/

namespace Sys2Proof

/-- A 16-bit word: an element of `X`, an accumulator, a code unit or a character code (R6 `WORD`, R57). -/
abbrev Word := BitVec 16

/-- An 8-bit byte: a key byte, a data byte, a feedback byte or an output byte (R57). -/
abbrev Byte := BitVec 8

/-- A 4-bit nibble, the value of one hex digit (R57). -/
abbrev Nibble := BitVec 4

/-- A 32-bit command word `w` (30_encoding.md rule R70). -/
abbrev CommandWord := BitVec 32

/-- The direction of a session, written `enc` and `dec` in the listing syntax (R80): the source's `decrypting`
argument, false for `enc` and true for `dec` (10_state.md rule R29). -/
inductive Direction where
  | enc
  | dec
  deriving DecidableEq, Repr

end Sys2Proof
end

