-- ==== Sys2Proof/Syntax.lean ====
section
/-!
DEFINITION. The commands of the `KSE1` command set (30_encoding.md rule R75): one constructor for each row of
spec/opcode_table.json, in the table's order, each operand at the exact width of its class (R71, R72).
-/

namespace Sys2Proof

/-- A decoded command. -/
inductive Instr where
  /-- `NOP`: class Z (R167). -/
  | nop
  /-- `SC_OPEN dir`: class M (R161). -/
  | scOpen (dir : Direction)
  /-- `SC_CLOSE`: class Z (R162). -/
  | scClose
  /-- `SC_KEYHEX h`: class H, a character code (R163). -/
  | scKeyhex (h : Word)
  /-- `SC_BYTE b`: class B, a data byte (R164). -/
  | scByte (b : Byte)
  /-- `SC_ENCU h`: class H, a code unit (R165). -/
  | scEncu (h : Word)
  /-- `SC_DECH h`: class H, a character code (R166). -/
  | scDech (h : Word)
  /-- `KS_KEYB b`: class B, a key byte (R133). -/
  | ksKeyb (b : Byte)
  /-- `KS_GEN`: class Z (R134). -/
  | ksGen
  /-- `KS_FEED b`: class B, a feedback byte (R135). -/
  | ksFeed (b : Byte)
  /-- `HX_DNIB h`: class H, a character code (R102). -/
  | hxDnib (h : Word)
  /-- `HX_ENIB n`: class N, a nibble (R103). -/
  | hxEnib (n : Nibble)
  /-- `HX_DCHR h`: class H, a character code (R104). -/
  | hxDchr (h : Word)
  /-- `HX_DEND`: class Z (R105). -/
  | hxDend
  /-- `HX_EBYT b`: class B, a byte (R106). -/
  | hxEbyt (b : Byte)
  deriving DecidableEq, Repr

end Sys2Proof
end

