-- ==== Sys2Proof/WellFormed.lean ====
section
/-!
DEFINITION. When a command word is legal: the match and mask columns of the opcode map (30_encoding.md rule R75,
spec/opcode_table.json), transcribed apart from the decoder, and the two checks of rule R76 read off them. A term of
`Instr` needs no check of its own: its operands have the exact widths of rule R72, so an ill-formed operand cannot
be written; what can be ill-formed is a command word.
-/

namespace Sys2Proof

/-- The assigned opcodes, by mnemonic (R75). -/
inductive Opcode where
  | nop | scOpen | scClose | scKeyhex | scByte | scEncu | scDech
  | ksKeyb | ksGen | ksFeed
  | hxDnib | hxEnib | hxDchr | hxDend | hxEbyt
  deriving DecidableEq, Repr

/-- The opcode of a command: its row in the opcode map. -/
def Instr.opcode : Instr → Opcode
  | .nop => .nop
  | .scOpen _ => .scOpen
  | .scClose => .scClose
  | .scKeyhex _ => .scKeyhex
  | .scByte _ => .scByte
  | .scEncu _ => .scEncu
  | .scDech _ => .scDech
  | .ksKeyb _ => .ksKeyb
  | .ksGen => .ksGen
  | .ksFeed _ => .ksFeed
  | .hxDnib _ => .hxDnib
  | .hxEnib _ => .hxEnib
  | .hxDchr _ => .hxDchr
  | .hxDend => .hxDend
  | .hxEbyt _ => .hxEbyt

/-- One row of the opcode map: the `match` and `mask` columns of R75. -/
structure OpcodeRow where
  opcode : Opcode
  matchBits : CommandWord
  mask : CommandWord
  deriving DecidableEq, Repr

/-- The opcode map (R75, spec/opcode_table.json), row by row. -/
def opcodeRows : List OpcodeRow :=
  [⟨.nop, 0x00000000, 0xFFFFFFFF⟩,
   ⟨.scOpen, 0x01000000, 0xFFFEFFFF⟩,
   ⟨.scClose, 0x02000000, 0xFFFFFFFF⟩,
   ⟨.scKeyhex, 0x03000000, 0xFFFF0000⟩,
   ⟨.scByte, 0x04000000, 0xFFFFFF00⟩,
   ⟨.scEncu, 0x05000000, 0xFFFF0000⟩,
   ⟨.scDech, 0x06000000, 0xFFFF0000⟩,
   ⟨.ksKeyb, 0x10000000, 0xFFFFFF00⟩,
   ⟨.ksGen, 0x11000000, 0xFFFFFFFF⟩,
   ⟨.ksFeed, 0x12000000, 0xFFFFFF00⟩,
   ⟨.hxDnib, 0x20000000, 0xFFFF0000⟩,
   ⟨.hxEnib, 0x21000000, 0xFFFFFFF0⟩,
   ⟨.hxDchr, 0x22000000, 0xFFFF0000⟩,
   ⟨.hxDend, 0x23000000, 0xFFFFFFFF⟩,
   ⟨.hxEbyt, 0x24000000, 0xFFFFFF00⟩]

/-- A word selects a row when `(w and mask) = match` (R75). -/
def OpcodeRow.selects (r : OpcodeRow) (w : CommandWord) : Bool := w &&& r.mask == r.matchBits

/-- The row has the opcode bits `w[31:24]` of the word. -/
def OpcodeRow.sharesOpcode (r : OpcodeRow) (w : CommandWord) : Bool := r.matchBits >>> 24 == w >>> 24

/-- The first check of R76: some row has the word's opcode. -/
def opcodeAssigned (w : CommandWord) : Bool := opcodeRows.any (·.sharesOpcode w)

/-- The second check of R76: the row with the word's opcode, if there is one, has its reserved bits clear in the
word. -/
def reservedBitsClear (w : CommandWord) : Bool :=
  opcodeRows.all fun r => !r.sharesOpcode w || r.selects w

/-- A command word is well formed when it passes both checks of R76. Every other word is illegal (R77). -/
def WellFormedWord (w : CommandWord) : Bool := opcodeAssigned w && reservedBitsClear w

end Sys2Proof
end

