-- ==== Sys2Proof/Decode.lean ====
section
/-!
DEFINITION. The decoder of 30_encoding.md rule R76, total on all 2^32 words and naming why it rejects a word, and
after it the encoder, written from the same field layout (R70 to R73). Decoding reads no state (R79).
-/

namespace Sys2Proof

/-- The operand classes of R71. -/
inductive OperandClass where
  | Z | M | B | H | N
  deriving DecidableEq, Repr

/-- Why a word is no command (R76, R77). -/
inductive IllegalReason where
  /-- `w[31:24]` is one of the 241 reserved opcodes. -/
  | reservedOpcode
  /-- The opcode is assigned and a reserved bit of its class is 1. -/
  | reservedBit
  deriving DecidableEq, Repr

/-- The decoder's answer. -/
inductive Decoded where
  | command (i : Instr)
  | illegal (why : IllegalReason)
  deriving DecidableEq, Repr

/-- `OPC = w[31:24]` (R70). -/
def opcField (w : CommandWord) : Byte := w.extractLsb' 24 8

/-- `dir = w[16]`: 0 is encrypt and 1 is decrypt (R72). -/
def dirField (w : CommandWord) : Direction := if w.getLsbD 16 then .dec else .enc

/-- `b = w[7:0]` (R72). -/
def byteField (w : CommandWord) : Byte := w.extractLsb' 0 8

/-- `h = w[15:0]` (R72). -/
def halfField (w : CommandWord) : Word := w.extractLsb' 0 16

/-- `n = w[3:0]` (R72). -/
def nibbleField (w : CommandWord) : Nibble := w.extractLsb' 0 4

/-- The `OPC` column of R75. -/
def Opcode.bits : Opcode → Byte
  | .nop => 0x00
  | .scOpen => 0x01
  | .scClose => 0x02
  | .scKeyhex => 0x03
  | .scByte => 0x04
  | .scEncu => 0x05
  | .scDech => 0x06
  | .ksKeyb => 0x10
  | .ksGen => 0x11
  | .ksFeed => 0x12
  | .hxDnib => 0x20
  | .hxEnib => 0x21
  | .hxDchr => 0x22
  | .hxDend => 0x23
  | .hxEbyt => 0x24

/-- The row with the given `OPC`; none when the opcode is reserved (R76, R77). -/
def opcodeOf (opc : Byte) : Option Opcode :=
  match opc.toNat with
  | 0x00 => some .nop
  | 0x01 => some .scOpen
  | 0x02 => some .scClose
  | 0x03 => some .scKeyhex
  | 0x04 => some .scByte
  | 0x05 => some .scEncu
  | 0x06 => some .scDech
  | 0x10 => some .ksKeyb
  | 0x11 => some .ksGen
  | 0x12 => some .ksFeed
  | 0x20 => some .hxDnib
  | 0x21 => some .hxEnib
  | 0x22 => some .hxDchr
  | 0x23 => some .hxDend
  | 0x24 => some .hxEbyt
  | _ => none

/-- The `class` column of R75. -/
def Opcode.operandClass : Opcode → OperandClass
  | .nop => .Z
  | .scOpen => .M
  | .scClose => .Z
  | .scKeyhex => .H
  | .scByte => .B
  | .scEncu => .H
  | .scDech => .H
  | .ksKeyb => .B
  | .ksGen => .Z
  | .ksFeed => .B
  | .hxDnib => .H
  | .hxEnib => .N
  | .hxDchr => .H
  | .hxDend => .Z
  | .hxEbyt => .B

/-- The `reserved mask over w` column of R71. -/
def OperandClass.reservedMask : OperandClass → CommandWord
  | .Z => 0x00FFFFFF
  | .M => 0x00FEFFFF
  | .B => 0x00FFFF00
  | .H => 0x00FF0000
  | .N => 0x00FFFFF0

/-- The command of an opcode with the operand of R72 taken from the word. -/
def Opcode.assemble (op : Opcode) (w : CommandWord) : Instr :=
  match op with
  | .nop => .nop
  | .scOpen => .scOpen (dirField w)
  | .scClose => .scClose
  | .scKeyhex => .scKeyhex (halfField w)
  | .scByte => .scByte (byteField w)
  | .scEncu => .scEncu (halfField w)
  | .scDech => .scDech (halfField w)
  | .ksKeyb => .ksKeyb (byteField w)
  | .ksGen => .ksGen
  | .ksFeed => .ksFeed (byteField w)
  | .hxDnib => .hxDnib (halfField w)
  | .hxEnib => .hxEnib (nibbleField w)
  | .hxDchr => .hxDchr (halfField w)
  | .hxDend => .hxDend
  | .hxEbyt => .hxEbyt (byteField w)

/-- `decode(w)` of R76: the opcode, then the reserved bits of its class, then the operand. -/
def decode (w : CommandWord) : Decoded :=
  match opcodeOf (opcField w) with
  | none => .illegal .reservedOpcode
  | some op =>
    if w &&& op.operandClass.reservedMask = 0 then .command (op.assemble w) else .illegal .reservedBit

/-- `MOD = w[23:16]` of a command: bit 0 is `dir` for class M, and the field is 0 elsewhere (R70, R71). -/
def Instr.modField : Instr → Byte
  | .scOpen .dec => 0x01
  | .scOpen .enc => 0x00
  | .nop | .scClose | .scKeyhex _ | .scByte _ | .scEncu _ | .scDech _ | .ksKeyb _ | .ksGen | .ksFeed _
  | .hxDnib _ | .hxEnib _ | .hxDchr _ | .hxDend | .hxEbyt _ => 0x00

/-- `DATA = w[15:0]` of a command, with its reserved bits 0 (R71, R72). -/
def Instr.dataField : Instr → Word
  | .nop | .scOpen _ | .scClose | .ksGen | .hxDend => 0x0000
  | .scKeyhex h | .scEncu h | .scDech h | .hxDnib h | .hxDchr h => h
  | .scByte b | .ksKeyb b | .ksFeed b | .hxEbyt b => 0#8 ++ b
  | .hxEnib n => 0#12 ++ n

/-- The word of a command: `{OPC, MOD, DATA}` (R70). -/
def encode (i : Instr) : CommandWord := i.opcode.bits ++ i.modField ++ i.dataField

/-- The command word with the low `nbits` bits of `w`, the others 0. The word reaches the block whole (R70), so no
byte order enters (DEDUCED, log entry 16). -/
def tableWord (nbits w : Nat) : CommandWord := BitVec.ofNat 32 (w % 2 ^ nbits)

/-- The command the decoder reads from a word numbered as spec/opcode_table.json numbers it; none where it
rejects. -/
def decodeTableWord (nbits w : Nat) : Option Instr :=
  match decode (tableWord nbits w) with
  | .command i => some i
  | .illegal _ => none

end Sys2Proof
end

