-- ==== Sys2Proof/Config.lean ====
section
/-!
DEFINITION. The parameters of the block: the algorithm's constants (00_scope.md rule R6, which
93_implementation_defined.md I4 calls parameters with normative values; UNVERIFIED, log entry 19) and the parameter
`ODD_TAIL` (I2).
The open parameters `RESP_PACKING`, `CMD_LATENCY` and `OUT_DEPTH` are read by no rule (92_eei_decisions.md, "Open
parameters"), so they have no definition here; log entries 2, 9 and 10 say what the model does about them.
-/

namespace Sys2Proof.Config

/-- `KMUL`, the multiplier of `c` and `V` (R6). -/
def kmul : Nat := 20021

/-- `KT`, the multiplier of `T` (R6). -/
def kt : Nat := 346

/-- `KINC`, the increment of `V` (R6). -/
def kinc : Nat := 1

/-- `KFEED`, the feedback multiplier (R6). -/
def kfeed : Nat := 257

/-- `NROUNDS`, the number of inner rounds of one byte (R6). -/
def nrounds : Nat := 8

/-- `KEYLEN`, the number of key bytes (R6). -/
def keylen : Nat := 16

/-- What `SC_CLOSE` does with a decrypted byte that waits for its partner: the values that
93_implementation_defined.md I2 gives the parameter `ODD_TAIL`. -/
inductive OddTail where
  /-- Discard the byte and report OK: the normative value. -/
  | drop
  /-- Report `E_HEX`: the documented deviation the source permits. -/
  | reportHex
  deriving DecidableEq, Repr

/-- `ODD_TAIL = DROP`, the value the spec takes (I2, 90_conflicts.md C3; DESIGN CHOICE, log entry 8). -/
def oddTail : OddTail := .drop

end Sys2Proof.Config
end

