-- ==== Sys2Proof/Machine/State.lean ====
section
/-!
DEFINITION. The architectural state of the block (10_state.md rule R36: every register of its table), the host's
events that have not arrived yet and the responses the host has not taken. The block has no memory, no program
counter, no general registers and no flags (R21, R22, R38, R50).
-/

namespace Sys2Proof.Machine

/-- The seven status codes of 60_exceptions.md rule R200; `Status.code` gives the byte. A model's status type has
exactly these seven values (93_implementation_defined.md I5). -/
inductive Status where
  /-- 0x00, the command completed. -/
  | ok
  /-- 0x01, the key is not exactly 16 bytes. -/
  | eKeylen
  /-- 0x02, a character is no hex digit, or a hex string has odd length. -/
  | eHex
  /-- 0x03, reserved opcode or nonzero reserved bit. -/
  | eIllegal
  /-- 0x04, a session command while `SESS = IDLE`. -/
  | eNosess
  /-- 0x05, a session command other than `SC_CLOSE` while `SESS = FAILED`. -/
  | eFailed
  /-- 0x06, `SC_ENCU` in a decrypt session or `SC_DECH` in an encrypt session. -/
  | eMode
  deriving DecidableEq, Repr

/-- `SESS`, the session state (R28). The 2-bit code 3 is never written, and the spec lets a model leave it out
(DEDUCED, log entry 7). -/
inductive Session where
  /-- 0, IDLE: no invocation in progress. -/
  | idle
  /-- 1, OPEN: an invocation in progress with no error so far. -/
  | opened
  /-- 2, FAILED: the invocation has hit an error. -/
  | failed
  deriving DecidableEq, Repr

/-- The response to one command: its status and its output bytes in emission order (R74). -/
structure Response where
  status : Status
  bytes : List Byte
  deriving DecidableEq, Repr

/-- What the host can do to the block between two commands: issue a command word (R20), take the oldest response
(R230, R240; DESIGN CHOICE, log entry 3), or assert reset (R230, R232). -/
inductive HostEvent where
  | command (w : CommandWord)
  | take
  | reset
  deriving DecidableEq, Repr

/-- The state of one block. The field comments give the register of R36 each one is. -/
structure State where
  /-- `X[0..7]`, the state array (R23). -/
  x : Vector Word 8
  /-- `T`, accumulator (R24). -/
  t : Word
  /-- `c`, accumulator (R25). -/
  c : Word
  /-- `SESS`, session state (R28). -/
  sess : Session
  /-- `DIR`, direction (R29). -/
  dir : Direction
  /-- `KEYCNT`, key byte count, 5 bits (R30). -/
  keycnt : BitVec 5
  /-- `KPEND`, a key nibble is pending (R31). -/
  kpend : Bool
  /-- `KHI`, the pending key nibble (R31). -/
  khi : Nibble
  /-- `DPEND`, a ciphertext nibble is pending (R32). -/
  dpend : Bool
  /-- `DHI`, the pending ciphertext nibble (R32). -/
  dhi : Nibble
  /-- `WPEND`, the high byte of a code unit is pending (R33). -/
  wpend : Bool
  /-- `WHI`, the pending high byte (R33). -/
  whi : Byte
  /-- `ERR`, session error code (R34); `ok` is its value 0 (DEDUCED, log entry 7). -/
  err : Status
  /-- `HXPEND`, a nibble of the stand-alone codec is pending (R35). -/
  hxpend : Bool
  /-- `HXHI`, the codec's pending nibble (R35). -/
  hxhi : Nibble
  /-- The host's events in arrival order, the next one first (R20, R56; DESIGN CHOICE, log entry 1). Not a
  register. -/
  inbox : List HostEvent
  /-- The responses the host has not taken, the oldest first, without bound (R74, R240; DESIGN CHOICE, log entry 2;
  DEDUCED, log entry 10). Not a register. -/
  responses : List Response
  deriving DecidableEq, Repr

/-- The reasons a step can stop the machine: none. Every word has a response (R76) and the block has no traps
(R210), so no meaning raises a fault (DEDUCED, log entry 12). -/
inductive Fault where
  deriving DecidableEq, Repr

/-- The reasons a step can refuse to give a meaning. -/
inductive Refusal where
  /-- Raised only by an arm of `exec` for a command that has no meaning yet; no arm does. Safe: a refused step proves
  nothing about the block. -/
  | notModelled (mnemonic : String)
  deriving DecidableEq, Repr

/-- The state right after reset (R36 reset column, R230): every register 0, `SESS = IDLE`, no response pending, and
no command received. -/
def State.reset : State where
  x := #v[0, 0, 0, 0, 0, 0, 0, 0]
  t := 0
  c := 0
  sess := .idle
  dir := .enc
  keycnt := 0
  kpend := false
  khi := 0
  dpend := false
  dhi := 0
  wpend := false
  whi := 0
  err := .ok
  hxpend := false
  hxhi := 0
  inbox := []
  responses := []

end Sys2Proof.Machine
end

