-- ==== Sys2Proof/Machine/Flags.lean ====
section
/-!
DEFINITION. The block has no flags (10_state.md rule R38): the status of a command is the only condition a host sees.
This file holds the status codes (60_exceptions.md rule R200) and the checks that decide a status, each written as the
error it raises, if any (R205, R206, R207, and the outcome of rule R162).
-/

namespace Sys2Proof.Machine

/-- The 8-bit code of a status (R200). -/
def Status.code : Status → Byte
  | .ok => 0x00
  | .eKeylen => 0x01
  | .eHex => 0x02
  | .eIllegal => 0x03
  | .eNosess => 0x04
  | .eFailed => 0x05
  | .eMode => 0x06

/-- The 2-bit encoding of `SESS` (R28). -/
def Session.code : Session → BitVec 2
  | .idle => 0
  | .opened => 1
  | .failed => 2

/-- The 1-bit encoding of `DIR` (R29). -/
def directionBit : Direction → BitVec 1
  | .enc => 0
  | .dec => 1

/-- `Gate()`: the rejection the session state gives a session command, if any (R205). -/
def sessionGate (s : State) : Option Status :=
  match s.sess with
  | .idle => some .eNosess
  | .failed => some .eFailed
  | .opened => none

/-- The mode check of a command that requires direction `d` (R207). -/
def modeCheck (d : Direction) (s : State) : Option Status :=
  if s.dir = d then none else some .eMode

/-- `KeyReady()`: the pending nibble is checked before the byte count (R206). -/
def keyReady (s : State) : Option Status :=
  if s.kpend then some .eHex
  else if s.keycnt ≠ BitVec.ofNat 5 Config.keylen then some .eKeylen
  else none

/-- The status of a decrypted byte left without its partner at `SC_CLOSE`: `ODD_TAIL`
(93_implementation_defined.md I2). -/
def oddTailStatus (policy : Config.OddTail) (s : State) : Status :=
  match policy with
  | .drop => .ok
  | .reportHex => if s.wpend then .eHex else .ok

/-- The outcome `SC_CLOSE` reports for a session in progress (R162). -/
def closeStatus (s : State) : Status :=
  match s.sess with
  | .idle => .eNosess
  | .failed => s.err
  | .opened =>
    if s.kpend then .eHex
    else if s.keycnt ≠ BitVec.ofNat 5 Config.keylen then .eKeylen
    else if s.dpend then .eHex
    else oddTailStatus Config.oddTail s

end Sys2Proof.Machine
end

