-- ==== Sys2Proof/Machine/Operands.lean ====
section
/-!
DEFINITION. What commands do with their operands before any state is touched: the two tables of the hex codec
(41_hex_byte_codec.md rules R100, R101; the character codes are PRESUMED by the spec, log
entry 18), the halves of bytes and code units, and the packing orders (20_memory.md
rules R51 to R54).
-/

namespace Sys2Proof.Machine

/-- `HEXTBL[i]`, the 256-entry hex-digit table: 22 entries are defined and `none` is `UNDEF` (R100). -/
def hexTable (i : Byte) : Option Nibble :=
  if 0x30#8 ≤ i ∧ i ≤ 0x39#8 then some ((i - 0x30#8).setWidth 4)
  else if 0x41#8 ≤ i ∧ i ≤ 0x46#8 then some ((i - 0x37#8).setWidth 4)
  else if 0x61#8 ≤ i ∧ i ≤ 0x66#8 then some ((i - 0x57#8).setWidth 4)
  else none

/-- `HexVal(h)`: a code at or above 0x100 is outside the table (R100). -/
def hexVal (h : Word) : Option Nibble :=
  if 0x100#16 ≤ h then none else hexTable (h.setWidth 8)

/-- `ALPHA`, the 16-entry lower-case alphabet, as character codes (R101). -/
def alphabet : Vector Byte 16 :=
  #v[0x30, 0x31, 0x32, 0x33, 0x34, 0x35, 0x36, 0x37, 0x38, 0x39, 0x61, 0x62, 0x63, 0x64, 0x65, 0x66]

/-- `HexChr(n)` (R101). -/
def hexChr (n : Nibble) : Byte := alphabet[n.toNat]

/-- `b[7:4]`. -/
def highNibble (b : Byte) : Nibble := b.extractLsb' 4 4

/-- `b[3:0]`. -/
def lowNibble (b : Byte) : Nibble := b.extractLsb' 0 4

/-- `{h, l}`: a byte from two nibbles, the high one first (R53). -/
def joinNibbles (h l : Nibble) : Byte := h ++ l

/-- `u[15:8]`. -/
def highByte (u : Word) : Byte := u.extractLsb' 8 8

/-- `u[7:0]`. -/
def lowByte (u : Word) : Byte := u.extractLsb' 0 8

/-- `{b0, b1}`: a 16-bit value from two bytes, the high one first (R51, R52, R54). -/
def joinBytes (b0 b1 : Byte) : Word := b0 ++ b1

/-- The two characters of a byte, high nibble first (R53, R106). -/
def hexPair (b : Byte) : List Byte := [hexChr (highNibble b), hexChr (lowNibble b)]

end Sys2Proof.Machine
end

