-- ==== Sys2Proof/Machine/Ops.lean ====
section
/-!
DEFINITION. The named operations over the registers that the commands share: how a command ends (60_exceptions.md
rules R203, R204; the block's only exceptions are these statuses, R210), the checks in front of a body (R205 to R207),
the keystream engine's three functions (42_keystream_engine.md rules R130 to R132), the executor's step
(43_stream_cipher_executor.md rule R160), clearing a session (R161), and the host's events (R20, R230 to R232).
-/

namespace Sys2Proof.Machine

/-! ## How a command ends -/

/-- Return the response of the command: a status and the emitted bytes (R74), after every earlier response (R59). -/
def respond (st : Status) (bytes : List Byte) (s : State) : State :=
  { s with responses := s.responses ++ [⟨st, bytes⟩] }

/-- End the command with OK and its emitted bytes. -/
def complete (bytes : List Byte) (s : State) : State := respond .ok bytes s

/-- `Reject(code)`: no register is written and no byte is emitted (R203). -/
def reject (code : Status) (s : State) : State := respond code [] s

/-- `Fail(code)`: `SESS <- FAILED`, `ERR <- code`, no output, no other register written (R204). -/
def failSession (code : Status) (s : State) : State :=
  respond code [] { s with sess := .failed, err := code }

/-! ## The checks in front of a command's body -/

/-- Run the session gate first; the body runs only in an OPEN session (R205). -/
def gated (body : State → State) (s : State) : State :=
  match sessionGate s with
  | some code => reject code s
  | none => body s

/-- Run the mode check first (R207). -/
def inMode (d : Direction) (body : State → State) (s : State) : State :=
  match modeCheck d s with
  | some code => failSession code s
  | none => body s

/-- Run the key-ready check first (R206). -/
def withKey (body : State → State) (s : State) : State :=
  match keyReady s with
  | some code => failSession code s
  | none => body s

/-- Look up a character's nibble in a session command: an undefined entry fails the session (R163, R166). -/
def withDigit (h : Word) (body : Nibble → State → State) (s : State) : State :=
  match hexVal h with
  | some v => body v s
  | none => failSession .eHex s

/-! ## Keystream engine -/

/-- Reduction modulo 2^16 of an exact result (R9). -/
def narrow (n : Nat) : Word := BitVec.ofNat 16 n

/-- The word a key byte goes to, `KEYCNT >> 1` (R130). The caller guarantees `KEYCNT < 16`, where bits 3 to 1 are the
whole of `KEYCNT >> 1`; DEDUCED, log entry 6, says why the other bit is not
read. -/
def keyWordIndex (keycnt : BitVec 5) : Fin 8 := (keycnt.extractLsb' 1 3).toFin

/-- `KeyWrite(b)`: an even position fills the high half of its word and an odd one the low half (R130, R51). -/
def keyWrite (b : Byte) (s : State) : State :=
  let i := keyWordIndex s.keycnt
  let w := s.x[i]
  { s with
    x := s.x.set i (if s.keycnt.getLsbD 0 then joinBytes (highByte w) b else joinBytes b (lowByte w))
    keycnt := s.keycnt + 1 }

/-- The values one byte's rounds work on: the locals `V` and `Q` (10_state.md rule R26) and the accumulators. -/
structure Rounds where
  v : Word
  c : Word
  t : Word
  q : Word
  deriving DecidableEq, Repr

/-- Round `Y`: the six assignments of R131 in their order, each exact and then reduced (R9). The first `c` reads the
previous `T`, the second the `T` just written. -/
def round (x : Vector Word 8) (r : Rounds) (y : Fin 8) : Rounds :=
  let v := r.v ^^^ x[y]
  let c := narrow ((r.c.toNat + y.val) * Config.kmul + r.t.toNat)
  let t := narrow (v.toNat * Config.kt)
  let c := narrow (c.toNat + t.toNat)
  let v := narrow (v.toNat * Config.kmul + Config.kinc)
  { v := v, c := c, t := t, q := r.q ^^^ v ^^^ c }

/-- `Y = 0 to 7`, in this order (R131). -/
def roundIndices : List (Fin 8) := [0, 1, 2, 3, 4, 5, 6, 7]

/-- `Gen()` as a function of `(X, T, c)` alone (R131, R137): `V` and `Q` start at 0, `T` and `c` carry in. -/
def gen (x : Vector Word 8) (t c : Word) : Rounds :=
  roundIndices.foldl (round x) { v := 0, c := c, t := t, q := 0 }

/-- `Mask(Q) = (Q xor (Q >> 8)) and 0xFF` (R131). -/
def mask (q : Word) : Byte := ((q ^^^ (q >>> 8)) &&& 0xFF#16).setWidth 8

/-- Write `T` and `c`, the two registers of the rounds (R131). -/
def setAccumulators (t c : Word) (s : State) : State := { s with t := t, c := c }

/-- `Gen()` on the registers: writes `T` and `c` and returns `Q` (R131). -/
def runGen (s : State) : Word × State :=
  let r := gen s.x s.t s.c
  (r.q, setAccumulators r.t r.c s)

/-- The array after `Feed(U)`: every word XORed with `S = U * 257` (R132). -/
def feedArray (u : Byte) (x : Vector Word 8) : Vector Word 8 :=
  Vector.ofFn fun i => x[i] ^^^ narrow (u.toNat * Config.kfeed)

/-- `Feed(U)` on the registers: writes `X` only (R132). -/
def feed (u : Byte) (s : State) : State := { s with x := feedArray u s.x }

/-! ## Stream-cipher executor -/

/-- `Step(z)`: draw `Q`, mask the byte, and feed back the byte that `DIR` chooses: the input before masking when
encrypting, the result after masking when decrypting (R160). -/
def cipherStep (z : Byte) (s : State) : Byte × State :=
  let (q, s) := runGen s
  let u := z ^^^ mask q
  let f := match s.dir with
    | .enc => z
    | .dec => u
  (u, feed f s)

/-- `ClearSession()`: every session register but `SESS` (R161). `HXPEND` and `HXHI` are not touched. -/
def clearSession (s : State) : State :=
  { s with
    x := #v[0, 0, 0, 0, 0, 0, 0, 0]
    t := 0
    c := 0
    dir := .enc
    keycnt := 0
    kpend := false
    khi := 0
    dpend := false
    dhi := 0
    wpend := false
    whi := 0
    err := .ok }

/-! ## The host's events -/

/-- The next event to arrive and the state once it has arrived; none while the block waits (R231). -/
def nextEvent (s : State) : Option (HostEvent × State) :=
  match s.inbox with
  | [] => none
  | e :: rest => some (e, { s with inbox := rest })

/-- The host's events with a command issued ahead of them. -/
def issueFirst (w : CommandWord) (s : State) : State := { s with inbox := .command w :: s.inbox }

/-- Reset replaces the whole state of the block with the reset state (R230, R232). What the host has still to do is
no state of the block and stays (DESIGN CHOICE, log entry 4). -/
def assertReset (s : State) : State := { State.reset with inbox := s.inbox }

/-- The host takes the oldest response; with none to take, nothing changes (DESIGN CHOICE, log entry 3). -/
def takeResponse (s : State) : State := { s with responses := s.responses.tail }

/-- A word that is no command: `Reject(E_ILLEGAL)`, in every session state (R76, R77). -/
def illegalWord (_why : IllegalReason) (s : State) : State := reject .eIllegal s

end Sys2Proof.Machine
end

