-- ==== Sys2Proof/Machine/Codec.lean ====
section
/-!
DEFINITION. The five commands of the hex byte codec (41_hex_byte_codec.md rules R102 to R106). None is gated by
`SESS`, and none reads or writes a session register.
-/

namespace Sys2Proof.Machine

/-- `HX_DNIB h` (R102). -/
def execHxDnib (h : Word) (s : State) : Host.Outcome State Fault Refusal :=
  match hexVal h with
  | none => .next (reject .eHex s)
  | some v => .next (complete [v.setWidth 8] s)

/-- `HX_ENIB n` (R103). -/
def execHxEnib (n : Nibble) (s : State) : Host.Outcome State Fault Refusal :=
  .next (complete [hexChr n] s)

/-- `HX_DCHR h` (R104): an undefined character abandons the string, a first digit is latched, a second completes a
byte and leaves `HXHI` as it is. -/
def execHxDchr (h : Word) (s : State) : Host.Outcome State Fault Refusal :=
  match hexVal h with
  | none => .next (respond .eHex [] { s with hxpend := false })
  | some v =>
    if s.hxpend then .next (complete [joinNibbles s.hxhi v] { s with hxpend := false })
    else .next (complete [] { s with hxhi := v, hxpend := true })

/-- `HX_DEND` (R105): an odd number of characters is an error, local to the codec. -/
def execHxDend (s : State) : Host.Outcome State Fault Refusal :=
  if s.hxpend then .next (respond .eHex [] { s with hxpend := false }) else .next (complete [] s)

/-- `HX_EBYT b` (R106). -/
def execHxEbyt (b : Byte) (s : State) : Host.Outcome State Fault Refusal :=
  .next (complete (hexPair b) s)

end Sys2Proof.Machine
end

