-- ==== Sys2Proof/Machine/Executor.lean ====
section
/-!
DEFINITION. `NOP` and the six session commands of the stream-cipher executor (43_stream_cipher_executor.md rules R161
to R167). A hold register keeps its value when its flag clears (R31 to R33; DESIGN CHOICE, log entry 15).
-/

namespace Sys2Proof.Machine

/-- `NOP` (R167). -/
def execNop (s : State) : Host.Outcome State Fault Refusal := .next (complete [] s)

/-- `SC_OPEN dir` (R161): accepted in every session state. -/
def execScOpen (d : Direction) (s : State) : Host.Outcome State Fault Refusal :=
  .next (complete [] { clearSession s with dir := d, sess := .opened })

/-- `SC_CLOSE` (R162): report the outcome and end the session whatever it is. -/
def execScClose (s : State) : Host.Outcome State Fault Refusal :=
  if s.sess = .idle then .next (reject .eNosess s)
  else .next (respond (closeStatus s) [] { clearSession s with sess := .idle })

/-- `SC_KEYHEX h` (R163): the first digit of a pair is latched even when `KEYCNT = 16`; the second loads a key byte
and leaves `KHI` as it is. -/
def execScKeyhex (h : Word) (s : State) : Host.Outcome State Fault Refusal :=
  .next (gated (withDigit h fun v s =>
    if s.kpend then
      if s.keycnt = BitVec.ofNat 5 Config.keylen then failSession .eKeylen s
      else complete [] { keyWrite (joinNibbles s.khi v) s with kpend := false }
    else complete [] { s with khi := v, kpend := true }) s)

/-- `SC_BYTE b` (R164): one byte in the session's direction; no mode check. -/
def execScByte (b : Byte) (s : State) : Host.Outcome State Fault Refusal :=
  .next (gated (withKey fun s =>
    let (u, s) := cipherStep b s
    complete [u] s) s)

/-- `SC_ENCU h` (R165): two steps, high byte first, four characters. -/
def execScEncu (h : Word) (s : State) : Host.Outcome State Fault Refusal :=
  .next (gated (inMode .enc (withKey fun s =>
    let (o0, s) := cipherStep (highByte h) s
    let (o1, s) := cipherStep (lowByte h) s
    complete (hexPair o0 ++ hexPair o1) s)) s)

/-- A decrypted byte takes its place in a code unit: the first is latched in `WHI`, the second emits the unit, high
byte first, and leaves `WHI` as it is (R166, R52). -/
def pairCodeUnit (p : Byte) (s : State) : State :=
  if s.wpend then complete [s.whi, p] { s with wpend := false }
  else complete [] { s with whi := p, wpend := true }

/-- `SC_DECH h` (R166): the first digit of a pair is latched in `DHI`; the second decrypts a byte. -/
def execScDech (h : Word) (s : State) : Host.Outcome State Fault Refusal :=
  .next (gated (inMode .dec (withKey (withDigit h fun v s =>
    if s.dpend then
      let (p, s) := cipherStep (joinNibbles s.dhi v) { s with dpend := false }
      pairCodeUnit p s
    else complete [] { s with dhi := v, dpend := true }))) s)

end Sys2Proof.Machine
end

