-- ==== Sys2Proof/Machine/Keystream.lean ====
section
/-!
DEFINITION. The three commands of the keystream engine (42_keystream_engine.md rules R133 to R135).
-/

namespace Sys2Proof.Machine

/-- `KS_KEYB b` (R133): session gate, then a pending hex nibble, then a seventeenth byte. -/
def execKsKeyb (b : Byte) (s : State) : Host.Outcome State Fault Refusal :=
  .next (gated (fun s =>
    if s.kpend then failSession .eHex s
    else if s.keycnt = BitVec.ofNat 5 Config.keylen then failSession .eKeylen s
    else complete [] (keyWrite b s)) s)

/-- `KS_GEN` (R134): `Q` high byte first, then the mask (R54). -/
def execKsGen (s : State) : Host.Outcome State Fault Refusal :=
  .next (gated (withKey fun s =>
    let (q, s) := runGen s
    complete [highByte q, lowByte q, mask q] s) s)

/-- `KS_FEED b` (R135). -/
def execKsFeed (b : Byte) (s : State) : Host.Outcome State Fault Refusal :=
  .next (gated (withKey fun s => complete [] (feed b s)) s)

end Sys2Proof.Machine
end

