-- ==== Sys2Proof/Machine/Dispatch.lean ====
section
/-!
DEFINITION. One arm for each command: its meaning, called by its full name.
-/

namespace Sys2Proof.Machine

def exec (i : Instr) (s : State) : Host.Outcome State Fault Refusal :=
  match i with
  | .nop => Sys2Proof.Machine.execNop s
  | .scOpen dir => Sys2Proof.Machine.execScOpen dir s
  | .scClose => Sys2Proof.Machine.execScClose s
  | .scKeyhex h => Sys2Proof.Machine.execScKeyhex h s
  | .scByte b => Sys2Proof.Machine.execScByte b s
  | .scEncu h => Sys2Proof.Machine.execScEncu h s
  | .scDech h => Sys2Proof.Machine.execScDech h s
  | .ksKeyb b => Sys2Proof.Machine.execKsKeyb b s
  | .ksGen => Sys2Proof.Machine.execKsGen s
  | .ksFeed b => Sys2Proof.Machine.execKsFeed b s
  | .hxDnib h => Sys2Proof.Machine.execHxDnib h s
  | .hxEnib n => Sys2Proof.Machine.execHxEnib n s
  | .hxDchr h => Sys2Proof.Machine.execHxDchr h s
  | .hxDend => Sys2Proof.Machine.execHxDend s
  | .hxEbyt b => Sys2Proof.Machine.execHxEbyt b s

end Sys2Proof.Machine
end

