-- ==== Sys2Proof/Machine/Step.lean ====
section
/-!
DEFINITION. One step: the block takes the next event of its host and carries it out whole (20_memory.md rule R56).
A command is decoded before any other check (30_encoding.md rule R76). Reset is a step of its own (70_reset_and_hazards.md
rule R232; DEDUCED, log entry 11), and no rule depends on time (DEDUCED, log entry 9).
With no event to take, the block waits and nothing changes (R231; DESIGN CHOICE, log entry 5).
-/

namespace Sys2Proof.Machine

def step (s : State) : Host.Outcome State Fault Refusal :=
  match nextEvent s with
  | none => .next s
  | some (.take, s') => .next (takeResponse s')
  | some (.reset, s') => .next (assertReset s')
  | some (.command w, s') =>
    match decode w with
    | .command i => exec i s'
    | .illegal why => .next (illegalWord why s')

/-- The state with the host issuing the table's word as its very next command. The block fetches nothing (R21), so
this is the one way a command comes to run (DESIGN CHOICE, log entry 1). -/
def State.withFetchWord (s : State) (nbits w : Nat) : State := issueFirst (tableWord nbits w) s

end Sys2Proof.Machine
end

