-- ==== Sys2Proof/Machine/Assembler.lean ====
section
/-!
DEFINITION. The listing syntax and the pseudo-commands of this spec (30_encoding.md rules R80, R81), and the command
sequences that stand for the source's functions (43_stream_cipher_executor.md rules R168 to R170). Text is a list of
characters.
-/

namespace Sys2Proof.Machine

/-! ## Pseudo-commands (R81) -/

/-- `KEY k0 .. k15`. -/
def keyCommands (key : List Byte) : List Instr := key.map Instr.ksKeyb

/-- `KEYHEX "s"`. -/
def keyhexCommands (s : List Word) : List Instr := s.map Instr.scKeyhex

/-- `ENCTEXT "s"`. -/
def enctextCommands (s : List Word) : List Instr := s.map Instr.scEncu

/-- `DECHEX "s"`. -/
def dechexCommands (s : List Word) : List Instr := s.map Instr.scDech

/-- `HEXDEC "s"`. -/
def hexdecCommands (s : List Word) : List Instr := s.map Instr.hxDchr ++ [Instr.hxDend]

/-- `HEXENC b0 .. bn`. -/
def hexencCommands (bytes : List Byte) : List Instr := bytes.map Instr.hxEbyt

/-! ## The source's functions as command sequences -/

/-- One `pc1` call (R168). -/
def pc1Commands (d : Direction) (key z : List Byte) : List Instr :=
  Instr.scOpen d :: (keyCommands key ++ (z.map Instr.scByte ++ [Instr.scClose]))

/-- One `encrypt` call (R169). -/
def encryptCommands (keyHex plaintext : List Word) : List Instr :=
  Instr.scOpen .enc :: (keyhexCommands keyHex ++ (enctextCommands plaintext ++ [Instr.scClose]))

/-- One `decrypt` call (R170). -/
def decryptCommands (keyHex cipherHex : List Word) : List Instr :=
  Instr.scOpen .dec :: (keyhexCommands keyHex ++ (dechexCommands cipherHex ++ [Instr.scClose]))

/-! ## Listing syntax (R80) -/

/-- The mnemonic of an opcode, in upper case (R75, R80). -/
def Opcode.mnemonic : Opcode → List Char
  | .nop => ['N', 'O', 'P']
  | .scOpen => ['S', 'C', '_', 'O', 'P', 'E', 'N']
  | .scClose => ['S', 'C', '_', 'C', 'L', 'O', 'S', 'E']
  | .scKeyhex => ['S', 'C', '_', 'K', 'E', 'Y', 'H', 'E', 'X']
  | .scByte => ['S', 'C', '_', 'B', 'Y', 'T', 'E']
  | .scEncu => ['S', 'C', '_', 'E', 'N', 'C', 'U']
  | .scDech => ['S', 'C', '_', 'D', 'E', 'C', 'H']
  | .ksKeyb => ['K', 'S', '_', 'K', 'E', 'Y', 'B']
  | .ksGen => ['K', 'S', '_', 'G', 'E', 'N']
  | .ksFeed => ['K', 'S', '_', 'F', 'E', 'E', 'D']
  | .hxDnib => ['H', 'X', '_', 'D', 'N', 'I', 'B']
  | .hxEnib => ['H', 'X', '_', 'E', 'N', 'I', 'B']
  | .hxDchr => ['H', 'X', '_', 'D', 'C', 'H', 'R']
  | .hxDend => ['H', 'X', '_', 'D', 'E', 'N', 'D']
  | .hxEbyt => ['H', 'X', '_', 'E', 'B', 'Y', 'T']

/-- The digit of a nibble, in the alphabet of R101. -/
def digitChar (n : Nibble) : Char := Char.ofNat (hexChr n).toNat

/-- The `k` low hex digits of a number, the highest first. -/
def hexDigits : Nat → Nat → List Char
  | 0, _ => []
  | k + 1, n => hexDigits k (n / 16) ++ [digitChar (BitVec.ofNat 4 n)]

/-- `0x` and `k` hex digits. -/
def hexLiteral (k n : Nat) : List Char := '0' :: 'x' :: hexDigits k n

/-- The operand of a command as R80 writes it; a character operand as its four digits (DESIGN CHOICE, log
entry 14). -/
def Instr.operandText : Instr → List Char
  | .nop | .scClose | .ksGen | .hxDend => []
  | .scOpen .enc => [' ', 'e', 'n', 'c']
  | .scOpen .dec => [' ', 'd', 'e', 'c']
  | .scKeyhex h | .scEncu h | .scDech h | .hxDnib h | .hxDchr h => ' ' :: hexLiteral 4 h.toNat
  | .scByte b | .ksKeyb b | .ksFeed b | .hxEbyt b => ' ' :: hexLiteral 2 b.toNat
  | .hxEnib n => ' ' :: hexLiteral 1 n.toNat

/-- `<word as 8 hex digits>  <MNEMONIC> [<operand>]` (R80). -/
def listing (i : Instr) : List Char :=
  hexDigits 8 (encode i).toNat ++ [' ', ' '] ++ Opcode.mnemonic i.opcode ++ Instr.operandText i

end Sys2Proof.Machine
end

