-- ==== Sys2Proof/Machine/Instances.lean ====
section
/-!
DEFINITION. Several instances of the block (20_memory.md rule R61, 60_exceptions.md rule R215): a list of states that
share nothing. Parallel invocations take their steps in some order, one instance at a time (DESIGN CHOICE, log entry 13).
-/

namespace Sys2Proof.Machine

/-- Instance `k` takes one step, and the others stand. A number with no instance changes nothing. -/
def stepInstance (k : Nat) (bank : List State) : Host.Outcome (List State) Fault Refusal :=
  match bank[k]? with
  | none => .next bank
  | some s =>
    match step s with
    | .next t => .next (bank.set k t)
    | .fault f => .fault f
    | .refused r => .refused r

end Sys2Proof.Machine
end

