-- ==== Sys2Proof/Machine/Reference.lean ====
section
/-!
DEFINITION. The source's functions, which this spec's commands stand for, as functions on lists: the hex and wide-text
codec (41_hex_byte_codec.md rules R107, R108, 20_memory.md rules R52, R53), `pc1` (10_state.md rule R27,
43_stream_cipher_executor.md rules R160, R168), and `encrypt` and `decrypt` (R165, R166, R171 for the order in which
their checks are made). No command calls them: statements compare command sequences with them
(DEDUCED, log entry 17).
-/

namespace Sys2Proof.Machine.Source

/-- The source's two errors that the block reports (60_exceptions.md rule R209). -/
inductive SourceError where
  /-- `KeyLengthError`. -/
  | keyLength
  /-- `InvalidHexError`. -/
  | invalidHex
  deriving DecidableEq, Repr

/-- A function's result or its error. -/
inductive Result (α : Type) where
  | value (a : α)
  | error (e : SourceError)
  deriving DecidableEq, Repr

/-- `hexToBytes`: fails on an odd length or a character that is no hex digit (R107). -/
def hexToBytes : List Word → Result (List Byte)
  | [] => .value []
  | [_] => .error .invalidHex
  | h :: l :: rest =>
    match hexVal h, hexVal l, hexToBytes rest with
    | some a, some b, .value bytes => .value (joinNibbles a b :: bytes)
    | _, _, _ => .error .invalidHex

/-- `bytesToHex`, as character codes (R106, R108). -/
def bytesToHex (bytes : List Byte) : List Byte := bytes.flatMap hexPair

/-- `wideTextToBytes` (R52). -/
def wideTextToBytes (text : List Word) : List Byte := text.flatMap fun u => [highByte u, lowByte u]

/-- `bytesToWideText`: a trailing odd byte is ignored (R162, 90_conflicts.md C3). -/
def bytesToWideText : List Byte → List Word
  | b0 :: b1 :: rest => joinBytes b0 b1 :: bytesToWideText rest
  | _ => []

/-- The KeystreamState of one invocation (R12). -/
structure KeystreamState where
  x : Vector Word 8
  t : Word
  c : Word
  deriving DecidableEq, Repr

/-- `X[i] = (key[2i] << 8) or key[2i+1]` (R27); bytes the key lacks are 0. -/
def packKey (key : List Byte) : Vector Word 8 :=
  Vector.ofFn fun i => joinBytes (key.getD (2 * i.val) 0) (key.getD (2 * i.val + 1) 0)

/-- The plaintext byte of one step, which is fed back in both directions (R160). -/
def plaintextByte (d : Direction) (z u : Byte) : Byte :=
  match d with
  | .enc => z
  | .dec => u

/-- The per-byte loop of `pc1` (R160). -/
def pc1Loop (d : Direction) : List Byte → KeystreamState → List Byte
  | [], _ => []
  | z :: zs, k =>
    let r := gen k.x k.t k.c
    let u := z ^^^ mask r.q
    u :: pc1Loop d zs { x := feedArray (plaintextByte d z u) k.x, t := r.t, c := r.c }

/-- `pc1(z, key, d)`: the key must be 16 bytes (R168). -/
def pc1 (z key : List Byte) (d : Direction) : Result (List Byte) :=
  if key.length = Config.keylen then .value (pc1Loop d z { x := packKey key, t := 0, c := 0 })
  else .error .keyLength

/-- `encrypt(plaintext, keyHex)` (R165, R169). -/
def encrypt (plaintext keyHex : List Word) : Result (List Byte) :=
  match hexToBytes keyHex with
  | .error e => .error e
  | .value key =>
    match pc1 (wideTextToBytes plaintext) key .enc with
    | .error e => .error e
    | .value out => .value (bytesToHex out)

/-- `decrypt(cipherHex, keyHex)`: the ciphertext is converted first, then the key, and the key length is checked last
(R171). -/
def decrypt (cipherHex keyHex : List Word) : Result (List Word) :=
  match hexToBytes cipherHex with
  | .error e => .error e
  | .value z =>
    match hexToBytes keyHex with
    | .error e => .error e
    | .value key =>
      match pc1 z key .dec with
      | .error e => .error e
      | .value out => .value (bytesToWideText out)

end Sys2Proof.Machine.Source
end

