-- ==== Sys2Proof/Safety.lean ====
section
/-!
DEFINITION. What statements about this block are said in: running a list of commands, the responses a run adds, the
invariant of 10_state.md rule R39, and the groups of commands the rules name.
-/

namespace Sys2Proof.Machine

/-! ## Runs -/

/-- Execute commands in order, each to its end before the next (20_memory.md rules R56, R59). -/
def runInstrs : List Instr → State → Host.Outcome State Fault Refusal
  | [], s => .next s
  | i :: rest, s =>
    match exec i s with
    | .next t => runInstrs rest t
    | .fault f => .fault f
    | .refused r => .refused r

/-- `n` steps of the machine, each taking the next event of the host. -/
def runSteps (n : Nat) (s : State) : Host.Outcome State Fault Refusal := Host.Core.run Sys2Proof.core n s

/-- A run of `n` steps that no fault and no refusal ends: the safe runs. The block has no others (R76, R210). -/
def SafeRun (n : Nat) (s : State) : Prop := ∃ t, runSteps n s = .next t

/-- The output bytes of responses, in order (R59). -/
def outputBytes (rs : List Response) : List Byte := rs.flatMap (·.bytes)

/-- The first status of a run that is not OK (R171, R208). -/
def firstFailure (rs : List Response) : Option Status :=
  (rs.find? fun r => r.status != .ok).map (·.status)

/-! ## How a command ends, in the words of statements -/

/-- The command is rejected with `code`: a response without bytes, and no register changes (R203). -/
def Rejects (i : Instr) (s : State) (code : Status) : Prop :=
  exec i s = .next { s with responses := s.responses ++ [⟨code, []⟩] }

/-- The command fails the session with `code`: `SESS` and `ERR` are written and nothing else (R204). -/
def Fails (i : Instr) (s : State) (code : Status) : Prop :=
  exec i s = .next { s with sess := .failed, err := code, responses := s.responses ++ [⟨code, []⟩] }

/-- An OPEN session whose key is complete, with no key nibble pending: every check of a data command but the mode check
passes (R205, R206). -/
def Ready (s : State) : Prop := s.sess = .opened ∧ s.kpend = false ∧ s.keycnt = 16

/-- `Q[15:8] xor Q[7:0]`, the second form R131 gives the mask. -/
def maskOf (q : Word) : Byte := q.extractLsb' 8 8 ^^^ q.extractLsb' 0 8

/-- Every word XORed with `{U, U}`, the second form R132 gives the feedback. -/
def broadcastXor (u : Byte) (x : Vector Word 8) : Vector Word 8 := Vector.ofFn fun i => x[i] ^^^ (u ++ u)

/-- Two states that differ at most in the stand-alone codec's registers and the responses. -/
def SameButCodec (s s' : State) : Prop :=
  s' = { s with hxpend := s'.hxpend, hxhi := s'.hxhi, responses := s'.responses }

/-! ## The invariant of R39 -/

/-- The key byte at position `k` of `X` (R51): the high half of word `k >> 1` for an even `k`, the low half for an odd
one. -/
def keyByteAt (x : Vector Word 8) (k : Fin 16) : Byte :=
  let w := x[k.val / 2]
  if k.val % 2 = 0 then highByte w else lowByte w

/-- Every session register but `SESS` is 0 (R39, third item). -/
def SessionCleared (s : State) : Prop :=
  s.x = #v[0, 0, 0, 0, 0, 0, 0, 0] ∧ s.t = 0 ∧ s.c = 0 ∧ s.dir = .enc ∧ s.keycnt = 0 ∧ s.kpend = false ∧ s.khi = 0 ∧
  s.dpend = false ∧ s.dhi = 0 ∧ s.wpend = false ∧ s.whi = 0 ∧ s.err = .ok

/-- A response as R74 allows it: at most 4 bytes, none when the status is not OK. -/
def Response.Legal (r : Response) : Prop := r.bytes.length ≤ 4 ∧ (r.status ≠ .ok → r.bytes = [])

/-- The invariants R39 lists, with the legal values of `ERR` (R36) and the form of every untaken response (R74). -/
structure BlockInv (s : State) : Prop where
  keycnt_le : s.keycnt.toNat ≤ Config.keylen
  err_iff_failed : s.err ≠ .ok ↔ s.sess = .failed
  err_legal : s.err = .ok ∨ s.err = .eKeylen ∨ s.err = .eHex ∨ s.err = .eMode
  idle_cleared : s.sess = .idle → SessionCleared s
  no_keystream_before_key : s.keycnt.toNat < Config.keylen → s.t = 0 ∧ s.c = 0
  key_tail_zero : s.keycnt.toNat < Config.keylen → ∀ k : Fin 16, s.keycnt.toNat ≤ k.val → keyByteAt s.x k = 0
  responses_legal : ∀ r ∈ s.responses, Response.Legal r

/-! ## Groups of commands -/

/-- The commands that run the session gate (R205): the session commands but `SC_CLOSE`. -/
def isGated : Opcode → Bool
  | .scKeyhex | .scByte | .scEncu | .scDech | .ksKeyb | .ksGen | .ksFeed => true
  | .nop | .scOpen | .scClose | .hxDnib | .hxEnib | .hxDchr | .hxDend | .hxEbyt => false

/-- The data commands (R206). -/
def isData : Opcode → Bool
  | .scByte | .scEncu | .scDech | .ksGen | .ksFeed => true
  | .nop | .scOpen | .scClose | .scKeyhex | .ksKeyb | .hxDnib | .hxEnib | .hxDchr | .hxDend | .hxEbyt => false

/-- The commands of the hex codec (R102 to R106). -/
def isCodec : Opcode → Bool
  | .hxDnib | .hxEnib | .hxDchr | .hxDend | .hxEbyt => true
  | .nop | .scOpen | .scClose | .scKeyhex | .scByte | .scEncu | .scDech | .ksKeyb | .ksGen | .ksFeed => false

/-- The commands that run the mode check, with the direction they require (R207). -/
def requiredDirection : Opcode → Option Direction
  | .scEncu => some .enc
  | .scDech => some .dec
  | .nop | .scOpen | .scClose | .scKeyhex | .scByte | .ksKeyb | .ksGen | .ksFeed
  | .hxDnib | .hxEnib | .hxDchr | .hxDend | .hxEbyt => none

/-- The table of R202: which command can return which status. -/
def canReturn : Opcode → Status → Bool
  | _, .ok => true
  | _, .eIllegal => true
  | op, .eKeylen => isGated op || op == .scClose
  | op, .eHex => isGated op || op == .scClose || op == .hxDnib || op == .hxDchr || op == .hxDend
  | op, .eNosess => isGated op || op == .scClose
  | op, .eFailed => isGated op
  | op, .eMode => op == .scClose || op == .scEncu || op == .scDech

end Sys2Proof.Machine
end

