-- ==== Sys2Proof/Certificates/Slice0/Obligations.lean ====
section
/-!
DEFINITION. The statements for the provers, in the order of OBLIGATIONS.json. Each docstring names the rule of the spec
it formalises.
-/

section

open Sys2Proof Sys2Proof.Machine

/-! ## Encoding (30_encoding.md) -/

/-- R82, an inference of the spec: the six worked encodings, read and written, and the four illegal words. -/
def Obligations.WorkedEncodings : Prop :=
  (decode 0x01000000 = .command (.scOpen .enc) ∧ encode (.scOpen .enc) = 0x01000000) ∧
  (decode 0x01010000 = .command (.scOpen .dec) ∧ encode (.scOpen .dec) = 0x01010000) ∧
  (decode 0x05000041 = .command (.scEncu 0x0041) ∧ encode (.scEncu 0x0041) = 0x05000041) ∧
  (decode 0x06000036 = .command (.scDech 0x0036) ∧ encode (.scDech 0x0036) = 0x06000036) ∧
  (decode 0x2100000B = .command (.hxEnib 0xb) ∧ encode (.hxEnib 0xb) = 0x2100000B) ∧
  (decode 0x12000041 = .command (.ksFeed 0x41) ∧ encode (.ksFeed 0x41) = 0x12000041) ∧
  decode 0x04000100 = .illegal .reservedBit ∧
  decode 0x01020000 = .illegal .reservedBit ∧
  decode 0x2100001B = .illegal .reservedBit ∧
  decode 0x40000000 = .illegal .reservedOpcode

/-- Decoding the word of any command, with any operand, gives the command back. -/
def Obligations.DecodeOfEncode : Prop := ∀ i : Instr, decode (encode i) = .command i

/-- The other direction: a command's only word is its encoding. -/
def Obligations.EncodeOfDecode : Prop := ∀ (w : CommandWord) (i : Instr), decode w = .command i → encode i = w

/-- R75: a word decodes to a command of a row's opcode exactly when `(w and mask) = match`; each row's mask and match
come from its class and opcode; every opcode has a row. -/
def Obligations.WordSelectsItsTableRow : Prop :=
  (∀ r ∈ opcodeRows, ∀ w : CommandWord,
    w &&& r.mask = r.matchBits ↔ ∃ i : Instr, i.opcode = r.opcode ∧ decode w = .command i) ∧
  (∀ r ∈ opcodeRows, r.mask = 0xFF000000 ||| r.opcode.operandClass.reservedMask ∧
    r.matchBits = r.opcode.bits ++ 0#24) ∧
  (∀ op : Opcode, ∃ r ∈ opcodeRows, r.opcode = op)

/-- R77: the reserved opcodes, and that a word with a reserved opcode or a nonzero reserved bit answers `E_ILLEGAL`
and changes no register, in every state. -/
def Obligations.ReservedWordsAreIllegal : Prop :=
  (∀ opc : Byte, opcodeOf opc = none ↔
    (0x07 ≤ opc.toNat ∧ opc.toNat ≤ 0x0F) ∨ (0x13 ≤ opc.toNat ∧ opc.toNat ≤ 0x1F) ∨ 0x25 ≤ opc.toNat) ∧
  ((List.range 256).filter fun n => (opcodeOf (BitVec.ofNat 8 n)).isNone).length = 241 ∧
  (∀ (s : State) (w : CommandWord) (rest : List HostEvent), s.inbox = .command w :: rest →
    (opcodeOf (opcField w) = none ∨
      ∃ op, opcodeOf (opcField w) = some op ∧ w &&& op.operandClass.reservedMask ≠ 0) →
    step s = .next { s with inbox := rest, responses := s.responses ++ [⟨.eIllegal, []⟩] })

/-- R78: `NOP` has the one encoding 0, and every other word with `OPC = 0x00` is illegal. -/
def Obligations.NopHasOneEncoding : Prop :=
  ∀ w : CommandWord, (decode w = .command .nop ↔ w = 0) ∧
    (opcField w = 0 → w ≠ 0 → decode w = .illegal .reservedBit)

/-! ## The step -/

/-- A step runs the command its next word decodes to, on the state without that word, with nothing added around it.
The list of events is the model's choice (log entry 1). -/
def Obligations.StepRunsDecodedCommand : Prop :=
  ∀ (s : State) (w : CommandWord) (rest : List HostEvent) (i : Instr), s.inbox = .command w :: rest →
    decode w = .command i → step s = exec i { s with inbox := rest }

/-- A step on the encoding of any command runs that command. The list of events is the model's choice (log entry 1). -/
def Obligations.StepRunsIssuedCommand : Prop :=
  ∀ (s : State) (rest : List HostEvent) (i : Instr), s.inbox = .command (encode i) :: rest →
    step s = exec i { s with inbox := rest }

/-- The model's own form of the host interface (log entries 1, 3, 4, 5): a word placed by `withFetchWord` is the next
command; with no event the block waits; the host takes the oldest response; reset leaves the host's later events. -/
def Obligations.HostEventsOfTheModel : Prop :=
  (∀ (s : State) (w : Nat) (i : Instr), decodeTableWord 32 w = some i → step (s.withFetchWord 32 w) = exec i s) ∧
  (∀ s : State, s.inbox = [] → step s = .next s) ∧
  (∀ (s : State) (rest : List HostEvent) (r : Response) (rs : List Response), s.inbox = .take :: rest →
    s.responses = r :: rs → step s = .next { s with inbox := rest, responses := rs }) ∧
  (∀ (s : State) (rest : List HostEvent), s.inbox = .take :: rest → s.responses = [] →
    step s = .next { s with inbox := rest }) ∧
  (∀ (s : State) (rest : List HostEvent), s.inbox = .reset :: rest →
    step s = .next { State.reset with inbox := rest })

/-- R230: asserting reset puts every register to its reset value and leaves no response pending. -/
def Obligations.ResetClearsEveryRegister : Prop :=
  ∀ (s : State) (rest : List HostEvent), s.inbox = .reset :: rest →
    ∃ t, step s = .next t ∧ t.sess = .idle ∧ t.dir = .enc ∧ t.keycnt = 0 ∧ t.err = .ok ∧
      (∀ i : Fin 8, t.x[i] = 0) ∧ t.t = 0 ∧ t.c = 0 ∧ t.kpend = false ∧ t.khi = 0 ∧ t.dpend = false ∧ t.dhi = 0 ∧
      t.wpend = false ∧ t.whi = 0 ∧ t.hxpend = false ∧ t.hxhi = 0 ∧ t.responses = []

/-- The machine's run over a list of issued commands is the commands executed one at a time in arrival order. The
list of events is the model's choice (log entry 1). -/
def Obligations.RunExecutesCommandsInOrder : Prop :=
  ∀ (is : List Instr) (s : State), s.inbox = [] →
    runSteps is.length { s with inbox := is.map fun i => HostEvent.command (encode i) } = runInstrs is s

/-- Every run from every state, of any length, goes through next states only. That no word and no command stops the
machine is the model's reading (DEDUCED, log entry 12). The steps that wait, take a response or reset are the model's
choices (DESIGN CHOICE, log entries 5, 3 and 4), and so is the list of events (log entry 1). -/
def Obligations.EveryRunIsSafe : Prop := ∀ (n : Nat) (s : State), SafeRun n s

/-- R61: a step of one instance leaves every other instance as it is, and does to its own what the step does alone.
The list of instances is the model's choice (log entry 13). -/
def Obligations.InstancesShareNothing : Prop :=
  ∀ (bank : List State) (k : Nat) (s t : State), bank[k]? = some s → step s = .next t →
    ∃ bank', stepInstance k bank = .next bank' ∧ bank'[k]? = some t ∧ ∀ j, j ≠ k → bank'[j]? = bank[j]?

/-! ## Statuses and responses (60_exceptions.md) -/

/-- R200: the code of each status, and that every command answers a next state with exactly one response more, whose
code is one of the seven. -/
def Obligations.EveryCommandReturnsOneStatus : Prop :=
  (Status.code .ok = 0x00 ∧ Status.code .eKeylen = 0x01 ∧ Status.code .eHex = 0x02 ∧ Status.code .eIllegal = 0x03 ∧
    Status.code .eNosess = 0x04 ∧ Status.code .eFailed = 0x05 ∧ Status.code .eMode = 0x06) ∧
  (∀ (i : Instr) (s : State), ∃ (t : State) (r : Response), exec i s = .next t ∧ t.responses = s.responses ++ [r] ∧
    t.inbox = s.inbox ∧ r.status.code.toNat < 0x07) ∧
  (∀ (w : CommandWord) (s : State) (rest : List HostEvent), s.inbox = .command w :: rest →
    ∃ (t : State) (r : Response), step s = .next t ∧ t.responses = s.responses ++ [r] ∧ t.inbox = rest ∧
      r.status.code.toNat < 0x07)

/-- R74: a response that is not OK has no bytes, and an OK response has the number of bytes the table gives the
command. The two commands with two numbers are told apart by the pending flags. No word has more than 4 bytes. -/
def Obligations.OutputBytesPerCommand : Prop :=
  (∀ (i : Instr) (s t : State), exec i s = .next t → ∃ r : Response, t.responses = s.responses ++ [r] ∧
    (r.status ≠ Status.ok → r.bytes = []) ∧
    (r.status = Status.ok → r.bytes.length = match i with
      | .nop | .scOpen _ | .scClose | .scKeyhex _ | .ksKeyb _ | .ksFeed _ | .hxDend => 0
      | .scByte _ | .hxDnib _ | .hxEnib _ => 1
      | .hxEbyt _ => 2
      | .ksGen => 3
      | .scEncu _ => 4
      | .scDech _ => if s.dpend && s.wpend then 2 else 0
      | .hxDchr _ => if s.hxpend then 1 else 0)) ∧
  (∀ (s t : State) (w : CommandWord) (rest : List HostEvent), s.inbox = .command w :: rest → step s = .next t →
    ∃ r : Response, t.responses = s.responses ++ [r] ∧ r.bytes.length ≤ 4 ∧ (r.status ≠ Status.ok → r.bytes = []))

/-- R202, an inference of the spec:
which command can return which status, over all states that satisfy the invariant and all words with the
command's opcode. -/
def Obligations.StatusTable : Prop :=
  ∀ (op : Opcode) (st : Status), canReturn op st = true ↔
    ∃ (s t : State) (w : CommandWord) (rest : List HostEvent) (r : Response), BlockInv s ∧
      s.inbox = .command w :: rest ∧ opcField w = op.bits ∧ step s = .next t ∧
      t.responses = s.responses ++ [r] ∧ r.status = st

/-- R205: a gated command in no session, or in a failed one, is rejected and changes nothing. -/
def Obligations.SessionGateRejects : Prop :=
  ∀ (i : Instr) (s : State), isGated i.opcode = true →
    (s.sess = .idle → Rejects i s .eNosess) ∧ (s.sess = .failed → Rejects i s .eFailed)

/-- R207: a command that requires a direction fails the session with `E_MODE` in the other, before its key is looked
at; the three data commands without a mode check complete in both directions once the key is ready. -/
def Obligations.ModeCheckFails : Prop :=
  (∀ (i : Instr) (s : State) (d : Direction), s.sess = .opened → requiredDirection i.opcode = some d → s.dir ≠ d →
    Fails i s .eMode) ∧
  (∀ (b : Byte) (s : State), Ready s → ∀ i ∈ [Instr.scByte b, Instr.ksGen, Instr.ksFeed b],
    ∃ (t : State) (bytes : List Byte), exec i s = .next t ∧ t.sess = .opened ∧
      t.responses = s.responses ++ [⟨.ok, bytes⟩])

/-- R206: a data command that passes the gate and its mode check fails the session with `E_HEX` for a pending key
nibble, and with `E_KEYLEN` for a key that is not 16 bytes. -/
def Obligations.KeyReadyCheckFails : Prop :=
  ∀ (i : Instr) (s : State), isData i.opcode = true → s.sess = .opened →
    (∀ d, requiredDirection i.opcode = some d → s.dir = d) →
    (s.kpend = true → Fails i s .eHex) ∧ (s.kpend = false → s.keycnt ≠ 16 → Fails i s .eKeylen)

/-- R231: in a state without a session, and so after reset, every session command but `SC_OPEN` returns `E_NOSESS`,
and every other command completes or reports its own operand. -/
def Obligations.CommandsOfTheResetState : Prop :=
  (∀ (i : Instr) (s : State), s.sess = .idle → isGated i.opcode = true ∨ i = .scClose → Rejects i s .eNosess) ∧
  (∀ (i : Instr) (s : State), isGated i.opcode = false → i ≠ .scClose →
    ∃ (t : State) (r : Response), exec i s = .next t ∧ t.responses = s.responses ++ [r] ∧
      (r.status = Status.ok ∨ r.status = Status.eHex ∧ isCodec i.opcode = true))

/-- R201: what an error changes, by its kind. A status that is not OK leaves every register, or writes `SESS` and
`ERR` only, or clears `HXPEND` only, or comes from `SC_CLOSE`, which always ends the session. An illegal word is
rejected. -/
def Obligations.ErrorsByTheirEffect : Prop :=
  (∀ (i : Instr) (s t : State) (code : Status) (bytes : List Byte), exec i s = .next t →
    t.responses = s.responses ++ [⟨code, bytes⟩] → code ≠ .ok →
    match i.opcode with
    | .scClose => s.sess = .idle → code = .eNosess ∧ t = { s with responses := s.responses ++ [⟨code, []⟩] }
    | .hxDchr | .hxDend => code = .eHex ∧ t = { s with hxpend := false, responses := s.responses ++ [⟨code, []⟩] }
    | .hxDnib => code = .eHex ∧ t = { s with responses := s.responses ++ [⟨code, []⟩] }
    | .nop | .scOpen | .hxEnib | .hxEbyt => False
    | .scKeyhex | .scByte | .scEncu | .scDech | .ksKeyb | .ksGen | .ksFeed =>
      ((code = .eNosess ∨ code = .eFailed) ∧ t = { s with responses := s.responses ++ [⟨code, []⟩] }) ∨
      ((code = .eKeylen ∨ code = .eHex ∨ code = .eMode) ∧
        t = { s with sess := .failed, err := code, responses := s.responses ++ [⟨code, []⟩] })) ∧
  (∀ s t : State, exec .scClose s = .next t → t.sess = .idle) ∧
  (∀ (s : State) (w : CommandWord) (rest : List HostEvent) (why : IllegalReason), s.inbox = .command w :: rest →
    decode w = .illegal why → step s = .next { s with inbox := rest, responses := s.responses ++ [⟨.eIllegal, []⟩] })

/-! ## State (10_state.md) -/

/-- The frame of every command, register by register: a command outside a register's `written by` list in R36 leaves
the register unchanged. No command changes the host's events. -/
def Obligations.RegistersWrittenOnlyByTheirCommands : Prop :=
  ∀ (i : Instr) (s t : State), exec i s = .next t →
    (i.opcode ∉ [.ksKeyb, .scKeyhex, .ksFeed, .scByte, .scEncu, .scDech, .scOpen, .scClose] → t.x = s.x) ∧
    (i.opcode ∉ [.ksGen, .scByte, .scEncu, .scDech, .scOpen, .scClose] → t.t = s.t ∧ t.c = s.c) ∧
    (i.opcode ∉ [.scOpen, .scClose] → isGated i.opcode = false → t.sess = s.sess ∧ t.err = s.err) ∧
    (i.opcode ∉ [.scOpen, .scClose] → t.dir = s.dir) ∧
    (i.opcode ∉ [.ksKeyb, .scKeyhex, .scOpen, .scClose] → t.keycnt = s.keycnt) ∧
    (i.opcode ∉ [.scKeyhex, .scOpen, .scClose] → t.kpend = s.kpend ∧ t.khi = s.khi) ∧
    (i.opcode ∉ [.scDech, .scOpen, .scClose] →
      t.dpend = s.dpend ∧ t.dhi = s.dhi ∧ t.wpend = s.wpend ∧ t.whi = s.whi) ∧
    (i.opcode ∉ [.hxDchr, .hxDend] → t.hxpend = s.hxpend) ∧
    (i.opcode ∉ [.hxDchr] → t.hxhi = s.hxhi) ∧
    t.inbox = s.inbox

/-- R28: how `SESS` moves: to OPEN by `SC_OPEN`, to IDLE by `SC_CLOSE`, to FAILED by a `Fail` of a gated command in an
OPEN session, which writes its code to `ERR`; otherwise it stays. -/
def Obligations.SessionStateMoves : Prop :=
  ∀ (i : Instr) (s t : State), exec i s = .next t → t.sess ≠ s.sess →
    (i.opcode = .scOpen ∧ t.sess = .opened) ∨ (i = .scClose ∧ t.sess = .idle) ∨
    (isGated i.opcode = true ∧ s.sess = .opened ∧ t.sess = .failed ∧
      t.responses = s.responses ++ [⟨t.err, []⟩] ∧ t.err ≠ .ok)

/-- The reset state satisfies the invariant. -/
def Obligations.ResetSatisfiesInvariant : Prop := BlockInv State.reset

/-- The invariants R39 lists, an inference of the spec, kept by every step from every state that satisfies them. -/
def Obligations.StepKeepsInvariant : Prop := ∀ s t : State, BlockInv s → step s = .next t → BlockInv t

/-- R40, an inference of the spec: while the key is complete and the session lasts, `X[i] xor X[j]` stays. -/
def Obligations.KeyDifferencesStayConstant : Prop :=
  ∀ (i : Instr) (s t : State), s.keycnt = 16 → exec i s = .next t → i.opcode ≠ .scOpen → i ≠ .scClose →
    ∀ j k : Fin 8, t.x[j] ^^^ t.x[k] = s.x[j] ^^^ s.x[k]

/-- R35: session commands neither touch nor depend on the stand-alone codec: from two states that differ only there
they answer the same response and states that still differ only there, with the codec's registers as before. -/
def Obligations.SessionIgnoresCodecState : Prop :=
  ∀ (i : Instr) (s s' t : State), isCodec i.opcode = false → SameButCodec s s' → exec i s = .next t →
    ∃ (t' : State) (r : Response), exec i s' = .next t' ∧ SameButCodec t t' ∧ t.responses = s.responses ++ [r] ∧
      t'.responses = s'.responses ++ [r] ∧ t.hxpend = s.hxpend ∧ t.hxhi = s.hxhi ∧
      t'.hxpend = s'.hxpend ∧ t'.hxhi = s'.hxhi

/-! ## Hex byte codec (41_hex_byte_codec.md) -/

/-- R100: the value of every 16-bit character code. -/
def Obligations.HexDigitTable : Prop :=
  ∀ h : Word, hexVal h =
    if 0x30 ≤ h.toNat ∧ h.toNat ≤ 0x39 then some (BitVec.ofNat 4 (h.toNat - 0x30))
    else if 0x41 ≤ h.toNat ∧ h.toNat ≤ 0x46 then some (BitVec.ofNat 4 (h.toNat - 0x37))
    else if 0x61 ≤ h.toNat ∧ h.toNat ≤ 0x66 then some (BitVec.ofNat 4 (h.toNat - 0x57))
    else none

/-- The alphabet of R101, and that a nibble's character has the nibble's value. The second clause is an inference of
the spec: "For every nibble `n`, `HexVal(HexChr(n)) = n`". -/
def Obligations.HexAlphabet : Prop :=
  ∀ n : Nibble, (hexChr n).toNat = (if n.toNat < 10 then 0x30 + n.toNat else 0x57 + n.toNat) ∧
    hexVal ((hexChr n).setWidth 16) = some n

/-- R102: `HX_DNIB`. -/
def Obligations.HxDnibMeaning : Prop :=
  ∀ (h : Word) (s : State), encode (.hxDnib h) = 0x20#8 ++ 0x00#8 ++ h ∧
    (∀ v, hexVal h = some v →
      exec (.hxDnib h) s = .next { s with responses := s.responses ++ [⟨.ok, [0#4 ++ v]⟩] }) ∧
    (hexVal h = none → Rejects (.hxDnib h) s .eHex)

/-- R103: `HX_ENIB`. -/
def Obligations.HxEnibMeaning : Prop :=
  ∀ (n : Nibble) (s : State), encode (.hxEnib n) = 0x21#8 ++ 0x00#8 ++ 0x000#12 ++ n ∧
    exec (.hxEnib n) s = .next { s with responses := s.responses ++ [⟨.ok, [hexChr n]⟩] }

/-- R104: `HX_DCHR`. -/
def Obligations.HxDchrMeaning : Prop :=
  ∀ (h : Word) (s : State), encode (.hxDchr h) = 0x22#8 ++ 0x00#8 ++ h ∧
    (hexVal h = none →
      exec (.hxDchr h) s = .next { s with hxpend := false, responses := s.responses ++ [⟨.eHex, []⟩] }) ∧
    (∀ v, hexVal h = some v → s.hxpend = false →
      exec (.hxDchr h) s =
        .next { s with hxhi := v, hxpend := true, responses := s.responses ++ [⟨.ok, []⟩] }) ∧
    (∀ v, hexVal h = some v → s.hxpend = true →
      exec (.hxDchr h) s =
        .next { s with hxpend := false, responses := s.responses ++ [⟨.ok, [s.hxhi ++ v]⟩] })

/-- R105: `HX_DEND`. -/
def Obligations.HxDendMeaning : Prop :=
  ∀ s : State, encode .hxDend = 0x23000000 ∧
    (s.hxpend = false → exec .hxDend s = .next { s with responses := s.responses ++ [⟨.ok, []⟩] }) ∧
    (s.hxpend = true →
      exec .hxDend s = .next { s with hxpend := false, responses := s.responses ++ [⟨.eHex, []⟩] })

/-- R106: `HX_EBYT`. -/
def Obligations.HxEbytMeaning : Prop :=
  ∀ (b : Byte) (s : State), encode (.hxEbyt b) = 0x24#8 ++ 0x0000#16 ++ b ∧
    exec (.hxEbyt b) s = .next { s with
      responses := s.responses ++ [⟨.ok, [hexChr (b.extractLsb' 4 4), hexChr (b.extractLsb' 0 4)]⟩] }

/-- R107, an inference of the spec:
`HEXDEC "s"` with no nibble pending succeeds exactly when the source's `hexToBytes` does, with its bytes as
the output; when the source fails, some command of it returns `E_HEX`. -/
def Obligations.HexdecIsHexToBytes : Prop :=
  ∀ (chars : List Word) (s : State), s.hxpend = false →
    ∃ (t : State) (rs : List Response), runInstrs (hexdecCommands chars) s = .next t ∧
    t.responses = s.responses ++ rs ∧
    (∀ bytes, Source.hexToBytes chars = .value bytes →
      (∀ r ∈ rs, r.status = Status.ok) ∧ outputBytes rs = bytes) ∧
    (∀ e, Source.hexToBytes chars = .error e → e = .invalidHex ∧ ∃ r ∈ rs, r.status = Status.eHex)

/-- R108, an inference of the spec:
`HEXENC` puts out the source's `bytesToHex`, two characters a byte, each of the lower-case alphabet. -/
def Obligations.HexencIsBytesToHex : Prop :=
  ∀ (bytes : List Byte) (s : State), ∃ (t : State) (rs : List Response),
    runInstrs (hexencCommands bytes) s = .next t ∧ t.responses = s.responses ++ rs ∧
    (∀ r ∈ rs, r.status = Status.ok) ∧ outputBytes rs = Source.bytesToHex bytes ∧
    (outputBytes rs).length = 2 * bytes.length ∧ ∀ ch ∈ outputBytes rs, ∃ n, ch = hexChr n

/-- R109, an inference of the spec:
the two hex round trips, through the commands. The output characters of `HEXENC` are fed to `HEXDEC`
zero-extended. -/
def Obligations.HexRoundTrip : Prop :=
  (∀ (bytes : List Byte) (s : State), s.hxpend = false →
    ∃ (t : State) (rs : List Response) (u : State) (rs' : List Response),
      runInstrs (hexencCommands bytes) s = .next t ∧ t.responses = s.responses ++ rs ∧
      (outputBytes rs).length = 2 * bytes.length ∧
      runInstrs (hexdecCommands ((outputBytes rs).map (·.setWidth 16))) t = .next u ∧
      u.responses = t.responses ++ rs' ∧ (∀ r ∈ rs ++ rs', r.status = Status.ok) ∧ outputBytes rs' = bytes) ∧
  (∀ (chars : List Word) (s : State), s.hxpend = false → chars.length % 2 = 0 →
    (∀ h ∈ chars, (hexVal h).isSome = true) →
    ∃ (t : State) (rs : List Response) (u : State) (rs' : List Response),
      runInstrs (hexdecCommands chars) s = .next t ∧ t.responses = s.responses ++ rs ∧
      runInstrs (hexencCommands (outputBytes rs)) t = .next u ∧ u.responses = t.responses ++ rs' ∧
      (outputBytes rs').map (·.setWidth 16) =
        chars.map (fun h => if 0x41 ≤ h.toNat ∧ h.toNat ≤ 0x46 then h + 0x20 else h))

/-! ## Keystream engine (42_keystream_engine.md) -/

/-- R131: the eight rounds as a recurrence over the naturals, each assignment reduced modulo 2^16; the registers they
write; and the mask. -/
def Obligations.GenIsTheRoundRecurrence : Prop :=
  (∀ (x : Vector Word 8) (t c : Word), ∃ V C T Q : Nat → Nat,
    V 0 = 0 ∧ Q 0 = 0 ∧ T 0 = t.toNat ∧ C 0 = c.toNat ∧
    (∀ y : Fin 8, ∃ v c1, v = V y ^^^ x[y].toNat ∧
      c1 = ((C y + y.val) * 20021 + T y) % 2 ^ 16 ∧
      T (y + 1) = v * 346 % 2 ^ 16 ∧
      C (y + 1) = (c1 + T (y + 1)) % 2 ^ 16 ∧
      V (y + 1) = (v * 20021 + 1) % 2 ^ 16 ∧
      Q (y + 1) = Q y ^^^ V (y + 1) ^^^ C (y + 1)) ∧
    (gen x t c).q.toNat = Q 8 ∧ (gen x t c).t.toNat = T 8 ∧ (gen x t c).c.toNat = C 8) ∧
  (∀ (s : State) (g : Rounds), gen s.x s.t s.c = g → runGen s = (g.q, { s with t := g.t, c := g.c })) ∧
  (∀ q : Word, (mask q).toNat = (q.toNat ^^^ (q.toNat >>> 8)) &&& 255 ∧
    mask q = q.extractLsb' 8 8 ^^^ q.extractLsb' 0 8)

/-- R133: `KS_KEYB`, with R130's placement: an even position is the high half of its word, an odd one the low half,
and every other key byte stays. No run reaches a `KEYCNT` above 16 (R30, log entry 6). -/
def Obligations.KsKeybMeaning : Prop :=
  ∀ (b : Byte) (s : State), encode (.ksKeyb b) = 0x10#8 ++ 0x0000#16 ++ b ∧
    (s.sess = .idle → Rejects (.ksKeyb b) s .eNosess) ∧
    (s.sess = .failed → Rejects (.ksKeyb b) s .eFailed) ∧
    (s.sess = .opened → s.kpend = true → Fails (.ksKeyb b) s .eHex) ∧
    (s.sess = .opened → s.kpend = false → s.keycnt = 16 → Fails (.ksKeyb b) s .eKeylen) ∧
    (s.sess = .opened → s.kpend = false → ∀ k : Fin 16, s.keycnt.toNat = k.val →
      ∃ x', exec (.ksKeyb b) s = .next { s with
          x := x', keycnt := s.keycnt + 1, responses := s.responses ++ [⟨.ok, []⟩] } ∧
        keyByteAt x' k = b ∧ ∀ j, j ≠ k → keyByteAt x' j = keyByteAt s.x j)

/-- R134: `KS_GEN`. -/
def Obligations.KsGenMeaning : Prop :=
  ∀ s : State, encode .ksGen = 0x11000000 ∧
    (s.sess = .idle → Rejects .ksGen s .eNosess) ∧
    (s.sess = .failed → Rejects .ksGen s .eFailed) ∧
    (s.sess = .opened → s.kpend = true → Fails .ksGen s .eHex) ∧
    (s.sess = .opened → s.kpend = false → s.keycnt ≠ 16 → Fails .ksGen s .eKeylen) ∧
    (Ready s → ∀ g, gen s.x s.t s.c = g →
      exec .ksGen s = .next { s with
        t := g.t
        c := g.c
        responses := s.responses ++ [⟨.ok, [g.q.extractLsb' 8 8, g.q.extractLsb' 0 8, maskOf g.q]⟩] })

/-- R135: `KS_FEED`. -/
def Obligations.KsFeedMeaning : Prop :=
  ∀ (b : Byte) (s : State), encode (.ksFeed b) = 0x12#8 ++ 0x0000#16 ++ b ∧
    (s.sess = .idle → Rejects (.ksFeed b) s .eNosess) ∧
    (s.sess = .failed → Rejects (.ksFeed b) s .eFailed) ∧
    (s.sess = .opened → s.kpend = true → Fails (.ksFeed b) s .eHex) ∧
    (s.sess = .opened → s.kpend = false → s.keycnt ≠ 16 → Fails (.ksFeed b) s .eKeylen) ∧
    (Ready s →
      exec (.ksFeed b) s = .next { s with x := broadcastXor b s.x, responses := s.responses ++ [⟨.ok, []⟩] })

/-- `Feed` of R132 XORs every word with `U * 257` and writes nothing else; feeding the same byte twice cancels out, and
feeding 0 changes nothing. That two feeds cancel is an inference of the spec: "Two `Feed(U)` with the same `U` cancel
out". -/
def Obligations.FeedXorsEveryWord : Prop :=
  (∀ (u : Byte) (s : State), ∃ x', feed u s = { s with x := x' } ∧
    ∀ y : Fin 8, x'[y].toNat = s.x[y].toNat ^^^ (u.toNat * 257)) ∧
  (∀ (b : Byte) (s : State), Ready s →
    runInstrs [.ksFeed b, .ksFeed b] s = .next { s with responses := s.responses ++ [⟨.ok, []⟩, ⟨.ok, []⟩] } ∧
    runInstrs [.ksFeed 0] s = .next { s with responses := s.responses ++ [⟨.ok, []⟩] })

/-- R136, an inference of the spec:
from the same state with the key ready, `KS_GEN` and a `KS_FEED` of the plaintext byte leave the registers
`SC_BYTE` leaves, and the output of `SC_BYTE` is the byte XORed with the third byte of `KS_GEN`. -/
def Obligations.GenThenFeedIsOneByte : Prop :=
  ∀ (z : Byte) (s : State), Ready s → ∃ t g u q1 q0 m, exec (.scByte z) s = .next t ∧
    t.responses = s.responses ++ [⟨.ok, [z ^^^ m]⟩] ∧
    exec .ksGen s = .next g ∧ g.responses = s.responses ++ [⟨.ok, [q1, q0, m]⟩] ∧
    exec (.ksFeed (match s.dir with | .enc => z | .dec => z ^^^ m)) g = .next u ∧
    u.responses = g.responses ++ [⟨.ok, []⟩] ∧ { u with responses := t.responses } = t

/-- R137, an inference of the spec:
two sessions in any two states with the same `(X, T, c)` and the same bytes fed back answer the same
responses; the `T` a byte leaves depends on `X` alone; and two sessions with the same key and the same bytes fed back
answer the same responses, whatever their directions and starting states. -/
def Obligations.KeystreamDependsOnStateAndFeedback : Prop :=
  (∀ (us : List Byte) (s s' : State), Ready s → Ready s' → s.x = s'.x → s.t = s'.t → s.c = s'.c →
    ∃ (t t' : State) (rs : List Response), runInstrs (us.flatMap fun u => [.ksGen, .ksFeed u]) s = .next t ∧
      runInstrs (us.flatMap fun u => [.ksGen, .ksFeed u]) s' = .next t' ∧
      t.responses = s.responses ++ rs ∧ t'.responses = s'.responses ++ rs ∧ rs.length = 2 * us.length) ∧
  (∀ (x : Vector Word 8) (t c t' c' : Word), (gen x t c).t = (gen x t' c').t) ∧
  (∀ (key us : List Byte) (d d' : Direction) (s s' : State), key.length = 16 →
    ∃ (t t' : State) (rs : List Response),
      runInstrs (.scOpen d :: (keyCommands key ++ us.flatMap fun u => [.ksGen, .ksFeed u])) s = .next t ∧
      runInstrs (.scOpen d' :: (keyCommands key ++ us.flatMap fun u => [.ksGen, .ksFeed u])) s' = .next t' ∧
      t.responses = s.responses ++ rs ∧ t'.responses = s'.responses ++ rs ∧ (∀ r ∈ rs, r.status = Status.ok))

/-- R27, an inference of the spec:
`SC_OPEN` and the 16 key bytes, raw or as hex characters of either case, give `X[i] = {key[2i], key[2i+1]}`,
`T = 0` and `c = 0`. -/
def Obligations.KeyLoadPacksBigEndian : Prop :=
  ∀ (d : Direction) (key : List Byte) (s : State), key.length = 16 →
    (∃ t, runInstrs (.scOpen d :: keyCommands key) s = .next t ∧ Ready t ∧ t.dir = d ∧ t.t = 0 ∧ t.c = 0 ∧
      ∀ i : Fin 8, t.x[i] = key.getD (2 * i.val) 0 ++ key.getD (2 * i.val + 1) 0) ∧
    (∀ chars, Source.hexToBytes chars = .value key →
      ∃ t, runInstrs (.scOpen d :: keyhexCommands chars) s = .next t ∧ Ready t ∧ t.dir = d ∧ t.t = 0 ∧ t.c = 0 ∧
        ∀ i : Fin 8, t.x[i] = key.getD (2 * i.val) 0 ++ key.getD (2 * i.val + 1) 0)

/-! ## Stream-cipher executor (43_stream_cipher_executor.md) -/

/-- R167: `NOP`. -/
def Obligations.NopMeaning : Prop :=
  ∀ s : State, encode .nop = 0 ∧ exec .nop s = .next { s with responses := s.responses ++ [⟨.ok, []⟩] }

/-- R161: `SC_OPEN`, in every session state. -/
def Obligations.ScOpenMeaning : Prop :=
  ∀ (d : Direction) (s : State),
    encode (.scOpen d) = 0x01#8 ++ (match d with | .enc => 0x00#8 | .dec => 0x01#8) ++ 0x0000#16 ∧
    exec (.scOpen d) s = .next {
      x := #v[0, 0, 0, 0, 0, 0, 0, 0], t := 0, c := 0, sess := .opened, dir := d, keycnt := 0, kpend := false,
      khi := 0, dpend := false, dhi := 0, wpend := false, whi := 0, err := .ok, hxpend := s.hxpend, hxhi := s.hxhi,
      inbox := s.inbox, responses := s.responses ++ [⟨.ok, []⟩] }

/-- R162: `SC_CLOSE`. -/
def Obligations.ScCloseMeaning : Prop :=
  ∀ s : State, encode .scClose = 0x02000000 ∧ (s.sess = .idle → Rejects .scClose s .eNosess) ∧
    (s.sess ≠ .idle → ∃ st, exec .scClose s = .next {
        x := #v[0, 0, 0, 0, 0, 0, 0, 0], t := 0, c := 0, sess := .idle, dir := .enc, keycnt := 0, kpend := false,
        khi := 0, dpend := false, dhi := 0, wpend := false, whi := 0, err := .ok, hxpend := s.hxpend,
        hxhi := s.hxhi, inbox := s.inbox, responses := s.responses ++ [⟨st, []⟩] } ∧
      (s.sess = .failed → st = s.err) ∧
      (s.sess = .opened → s.kpend = true → st = .eHex) ∧
      (s.sess = .opened → s.kpend = false → s.keycnt ≠ 16 → st = .eKeylen) ∧
      (s.sess = .opened → s.kpend = false → s.keycnt = 16 → s.dpend = true → st = .eHex) ∧
      (s.sess = .opened → s.kpend = false → s.keycnt = 16 → s.dpend = false → st = .ok))

/-- R163: `SC_KEYHEX`. No run reaches a `KEYCNT` above 16 (R30, log entry 6). -/
def Obligations.ScKeyhexMeaning : Prop :=
  ∀ (h : Word) (s : State), encode (.scKeyhex h) = 0x03#8 ++ 0x00#8 ++ h ∧
    (s.sess = .idle → Rejects (.scKeyhex h) s .eNosess) ∧
    (s.sess = .failed → Rejects (.scKeyhex h) s .eFailed) ∧
    (s.sess = .opened → hexVal h = none → Fails (.scKeyhex h) s .eHex) ∧
    (s.sess = .opened → ∀ v, hexVal h = some v → s.kpend = false →
      exec (.scKeyhex h) s =
        .next { s with khi := v, kpend := true, responses := s.responses ++ [⟨.ok, []⟩] }) ∧
    (s.sess = .opened → ∀ v, hexVal h = some v → s.kpend = true → s.keycnt = 16 →
      Fails (.scKeyhex h) s .eKeylen) ∧
    (s.sess = .opened → ∀ v, hexVal h = some v → s.kpend = true → ∀ k : Fin 16, s.keycnt.toNat = k.val →
      ∃ x', exec (.scKeyhex h) s = .next { s with
          x := x', keycnt := s.keycnt + 1, kpend := false, responses := s.responses ++ [⟨.ok, []⟩] } ∧
        keyByteAt x' k = s.khi ++ v ∧ ∀ j, j ≠ k → keyByteAt x' j = keyByteAt s.x j)

/-- The corner cases of R163 for a key string of `L` valid hex characters: the outcome of the session by `L`. -/
def Obligations.KeyStringLengthOutcome : Prop :=
  ∀ (d : Direction) (chars : List Word) (s : State), (∀ h ∈ chars, (hexVal h).isSome = true) →
    ∃ (t : State) (rs : List Response) (st : Status),
      runInstrs (.scOpen d :: (keyhexCommands chars ++ [.scClose])) s = .next t ∧
      t.responses = s.responses ++ (rs ++ [⟨st, []⟩]) ∧ rs.length = chars.length + 1 ∧
      (chars.length ≤ 33 → (∀ r ∈ rs, r.status = Status.ok) ∧
        st = if chars.length % 2 = 1 then Status.eHex else if chars.length = 32 then Status.ok else Status.eKeylen) ∧
      (34 ≤ chars.length → (∀ r ∈ rs.take 34, r.status = Status.ok) ∧
        (rs[34]?).map Response.status = some Status.eKeylen ∧
        (∀ r ∈ rs.drop 35, r.status = Status.eFailed) ∧ st = .eKeylen)

/-- R164: `SC_BYTE`, with the step of R160: in both directions the byte fed back is the plaintext byte. -/
def Obligations.ScByteMeaning : Prop :=
  ∀ (b : Byte) (s : State), encode (.scByte b) = 0x04#8 ++ 0x0000#16 ++ b ∧
    (s.sess = .idle → Rejects (.scByte b) s .eNosess) ∧
    (s.sess = .failed → Rejects (.scByte b) s .eFailed) ∧
    (s.sess = .opened → s.kpend = true → Fails (.scByte b) s .eHex) ∧
    (s.sess = .opened → s.kpend = false → s.keycnt ≠ 16 → Fails (.scByte b) s .eKeylen) ∧
    (Ready s → s.dir = .enc → ∀ g, gen s.x s.t s.c = g →
      exec (.scByte b) s = .next { s with
        x := broadcastXor b s.x, t := g.t, c := g.c
        responses := s.responses ++ [⟨.ok, [b ^^^ maskOf g.q]⟩] }) ∧
    (Ready s → s.dir = .dec → ∀ g, gen s.x s.t s.c = g →
      exec (.scByte b) s = .next { s with
        x := broadcastXor (b ^^^ maskOf g.q) s.x, t := g.t, c := g.c
        responses := s.responses ++ [⟨.ok, [b ^^^ maskOf g.q]⟩] })

/-- R165: `SC_ENCU`: the high byte and then the low byte, each fed back before masking, and four characters. -/
def Obligations.ScEncuMeaning : Prop :=
  ∀ (h : Word) (s : State), encode (.scEncu h) = 0x05#8 ++ 0x00#8 ++ h ∧
    (s.sess = .idle → Rejects (.scEncu h) s .eNosess) ∧
    (s.sess = .failed → Rejects (.scEncu h) s .eFailed) ∧
    (s.sess = .opened → s.dir = .dec → Fails (.scEncu h) s .eMode) ∧
    (s.sess = .opened → s.dir = .enc → s.kpend = true → Fails (.scEncu h) s .eHex) ∧
    (s.sess = .opened → s.dir = .enc → s.kpend = false → s.keycnt ≠ 16 → Fails (.scEncu h) s .eKeylen) ∧
    (Ready s → s.dir = .enc → ∀ b0 b1 g0 g1 o0 o1, b0 = h.extractLsb' 8 8 → b1 = h.extractLsb' 0 8 →
      gen s.x s.t s.c = g0 → gen (broadcastXor b0 s.x) g0.t g0.c = g1 →
      o0 = b0 ^^^ maskOf g0.q → o1 = b1 ^^^ maskOf g1.q →
      exec (.scEncu h) s = .next { s with
        x := broadcastXor b1 (broadcastXor b0 s.x), t := g1.t, c := g1.c
        responses := s.responses ++ [⟨.ok, [hexChr (o0.extractLsb' 4 4), hexChr (o0.extractLsb' 0 4),
          hexChr (o1.extractLsb' 4 4), hexChr (o1.extractLsb' 0 4)]⟩] })

/-- R166: `SC_DECH`. -/
def Obligations.ScDechMeaning : Prop :=
  ∀ (h : Word) (s : State), encode (.scDech h) = 0x06#8 ++ 0x00#8 ++ h ∧
    (s.sess = .idle → Rejects (.scDech h) s .eNosess) ∧
    (s.sess = .failed → Rejects (.scDech h) s .eFailed) ∧
    (s.sess = .opened → s.dir = .enc → Fails (.scDech h) s .eMode) ∧
    (s.sess = .opened → s.dir = .dec → s.kpend = true → Fails (.scDech h) s .eHex) ∧
    (s.sess = .opened → s.dir = .dec → s.kpend = false → s.keycnt ≠ 16 → Fails (.scDech h) s .eKeylen) ∧
    (Ready s → s.dir = .dec → hexVal h = none → Fails (.scDech h) s .eHex) ∧
    (Ready s → s.dir = .dec → ∀ v, hexVal h = some v → s.dpend = false →
      exec (.scDech h) s =
        .next { s with dhi := v, dpend := true, responses := s.responses ++ [⟨.ok, []⟩] }) ∧
    (Ready s → s.dir = .dec → ∀ v, hexVal h = some v → s.dpend = true →
      ∀ g p, gen s.x s.t s.c = g → p = (s.dhi ++ v) ^^^ maskOf g.q →
      (s.wpend = false → exec (.scDech h) s = .next { s with
        x := broadcastXor p s.x, t := g.t, c := g.c, dpend := false, whi := p, wpend := true
        responses := s.responses ++ [⟨.ok, []⟩] }) ∧
      (s.wpend = true → exec (.scDech h) s = .next { s with
        x := broadcastXor p s.x, t := g.t, c := g.c, dpend := false, wpend := false
        responses := s.responses ++ [⟨.ok, [s.whi, p]⟩] }))

/-- R168, an inference of the spec:
the `pc1` command sequence from any state: with a 16-byte key every command returns OK and the output is
`pc1` of the source; with another key length the first command that can see it returns `E_KEYLEN`, where `pc1` fails
with `KeyLengthError`. -/
def Obligations.CommandSequenceIsPc1 : Prop :=
  ∀ (d : Direction) (key z : List Byte) (s : State),
    ∃ (t : State) (rs : List Response),
      runInstrs (pc1Commands d key z) s = .next t ∧ t.responses = s.responses ++ rs ∧
      rs.length = key.length + z.length + 2 ∧
      (key.length = 16 → (∀ r ∈ rs, r.status = Status.ok) ∧ Source.pc1 z key d = .value (outputBytes rs)) ∧
      (key.length < 16 → Source.pc1 z key d = .error .keyLength ∧ outputBytes rs = [] ∧
        (∀ r ∈ rs.take (key.length + 1), r.status = Status.ok) ∧
        (rs[key.length + 1]?).map Response.status = some Status.eKeylen) ∧
      (16 < key.length → Source.pc1 z key d = .error .keyLength ∧ outputBytes rs = [] ∧
        (∀ r ∈ rs.take 17, r.status = Status.ok) ∧ (rs[17]?).map Response.status = some Status.eKeylen)

/-- R169, an inference of the spec: the `encrypt` command sequence with a key of 32 valid hex characters. -/
def Obligations.CommandSequenceIsEncrypt : Prop :=
  ∀ (keyHex text : List Word) (s : State), keyHex.length = 32 → (∀ h ∈ keyHex, (hexVal h).isSome = true) →
    ∃ (t : State) (rs : List Response),
      runInstrs (encryptCommands keyHex text) s = .next t ∧ t.responses = s.responses ++ rs ∧
      (∀ r ∈ rs, r.status = Status.ok) ∧ Source.encrypt text keyHex = .value (outputBytes rs) ∧
      (outputBytes rs).length = 4 * text.length

/-- R170, an inference of the spec:
the `decrypt` command sequence with a key of 32 valid hex characters and a valid HexText: the output is the
code units of the source's result, each as two bytes, high byte first. -/
def Obligations.CommandSequenceIsDecrypt : Prop :=
  ∀ (keyHex cipherHex : List Word) (s : State), keyHex.length = 32 → (∀ h ∈ keyHex, (hexVal h).isSome = true) →
    cipherHex.length % 2 = 0 → (∀ h ∈ cipherHex, (hexVal h).isSome = true) →
    ∃ (t : State) (rs : List Response) (text : List Word),
      runInstrs (decryptCommands keyHex cipherHex) s = .next t ∧ t.responses = s.responses ++ rs ∧
      (∀ r ∈ rs, r.status = Status.ok) ∧ Source.decrypt cipherHex keyHex = .value text ∧
      outputBytes rs = Source.wideTextToBytes text

/-- R171, an inference of the spec:
for any key string, text and ciphertext, the sequences end with every command OK exactly when the source's
function succeeds; otherwise the first status that is not OK is `E_HEX` or `E_KEYLEN`, and the closing `SC_CLOSE`
returns the same one. -/
def Obligations.SequencesFailWhenTheSourceFails : Prop :=
  (∀ (keyHex text : List Word) (s : State),
    ∃ (t : State) (rs : List Response) (st : Status), runInstrs (encryptCommands keyHex text) s = .next t ∧
      t.responses = s.responses ++ (rs ++ [⟨st, []⟩]) ∧
      ((∀ r ∈ rs ++ [⟨st, []⟩], Response.status r = .ok) ↔ ∃ out, Source.encrypt text keyHex = .value out) ∧
      (∀ e, Source.encrypt text keyHex = .error e → (st = .eHex ∨ st = .eKeylen) ∧
        firstFailure (rs ++ [⟨st, []⟩]) = some st)) ∧
  (∀ (keyHex cipherHex : List Word) (s : State),
    ∃ (t : State) (rs : List Response) (st : Status), runInstrs (decryptCommands keyHex cipherHex) s = .next t ∧
      t.responses = s.responses ++ (rs ++ [⟨st, []⟩]) ∧
      ((∀ r ∈ rs ++ [⟨st, []⟩], Response.status r = .ok) ↔ ∃ text, Source.decrypt cipherHex keyHex = .value text) ∧
      (∀ e, Source.decrypt cipherHex keyHex = .error e → (st = .eHex ∨ st = .eKeylen) ∧
        firstFailure (rs ++ [⟨st, []⟩]) = some st))

/-- The first half of R172, an inference of the spec:
for every 16-byte key and every byte sequence, the `pc1` sequence that decrypts what the encrypting `pc1` sequence put
out gives the bytes back, from any two starting states. -/
def Obligations.Pc1RoundTrip : Prop :=
  ∀ (key bytes : List Byte) (s s' : State), key.length = 16 →
    ∃ (t : State) (rs : List Response) (t' : State) (rs' : List Response),
      runInstrs (pc1Commands .enc key bytes) s = .next t ∧ t.responses = s.responses ++ rs ∧
      runInstrs (pc1Commands .dec key (outputBytes rs)) s' = .next t' ∧ t'.responses = s'.responses ++ rs' ∧
      (∀ r ∈ rs ++ rs', r.status = Status.ok) ∧ outputBytes rs' = bytes

/-- The second half of R172, an inference of the spec:
"The same holds for `encrypt` then `decrypt` of rules R169 and R170 for any WideText". With a key of 32 valid hex
characters, the `decrypt` sequence over the characters the `encrypt` sequence put out (zero-extended to character
codes) puts out the code units of the text, each as two bytes, high byte first, from any two starting states. -/
def Obligations.WideTextRoundTrip : Prop :=
  ∀ (keyHex text : List Word) (s s' : State), keyHex.length = 32 → (∀ h ∈ keyHex, (hexVal h).isSome = true) →
    ∃ (t : State) (rs : List Response) (t' : State) (rs' : List Response),
      runInstrs (encryptCommands keyHex text) s = .next t ∧ t.responses = s.responses ++ rs ∧
      runInstrs (decryptCommands keyHex ((outputBytes rs).map (·.setWidth 16))) s' = .next t' ∧
      t'.responses = s'.responses ++ rs' ∧ (∀ r ∈ rs ++ rs', r.status = Status.ok) ∧
      outputBytes rs' = text.flatMap fun u => [u.extractLsb' 8 8, u.extractLsb' 0 8]

end
end

