-- ==== Sys2Proof/Laws/Decode.lean ====
section
/-!
SUPPORT. The fields of a command's word, and which words are well formed (30_encoding.md rules R70, R71, R75, R76).
-/

namespace Sys2Proof

/-- Bitwise and, field by field, on the layout `{OPC, MOD, DATA}` of R70. -/
theorem and_fields (a a' b b' : Byte) (c c' : Word) :
    (a ++ b ++ c) &&& (a' ++ b' ++ c') = (a &&& a') ++ (b &&& b') ++ (c &&& c') := by
  rw [← BitVec.and_append, ← BitVec.and_append]

/-- The opcode field of a command's word is the command's opcode. -/
theorem opcField_encode (i : Instr) : opcField (encode i) = i.opcode.bits := by
  ext k hk
  simp only [opcField, encode, BitVec.getElem_extractLsb', BitVec.getLsbD_append]
  have h1 : ¬ 24 + k < 16 := by omega
  have h2 : ¬ 24 + k - 16 < 8 := by omega
  have h3 : 24 + k - 16 - 8 = k := by omega
  simp [h1, h2, h3, hk]

/-- Every opcode is the one its own bits stand for. -/
theorem opcodeOf_bits (op : Opcode) : opcodeOf op.bits = some op := by cases op <;> rfl

@[simp] theorem assemble_opcode (op : Opcode) (w : CommandWord) : (op.assemble w).opcode = op := by cases op <;> rfl

/-- Every mask covers the opcode bits, and two rows with one opcode are one row. -/
theorem opcodeRows_opcode : ∀ r ∈ opcodeRows, r.mask >>> 24 = 0xFF ∧
    ∀ q ∈ opcodeRows, q.matchBits >>> 24 = r.matchBits >>> 24 → q = r := by decide

/-- A word that selects a row is well formed. -/
theorem wellFormed_of_selects {w : CommandWord} {r : OpcodeRow} (hr : r ∈ opcodeRows)
    (h : w &&& r.mask = r.matchBits) : WellFormedWord w = true := by
  have hm := (opcodeRows_opcode r hr).1
  have hw : r.matchBits >>> 24 = w >>> 24 := by
    rw [← h, BitVec.ushiftRight_and_distrib, hm]
    ext i hi
    simp only [BitVec.getElem_and, BitVec.getElem_ushiftRight]
    by_cases h8 : i < 8
    · have : (255#32)[i] = true := by
        rw [← BitVec.getLsbD_eq_getElem hi]
        exact (by decide : ∀ j : Fin 8, (255#32).getLsbD j.val = true) ⟨i, h8⟩
      simp [this]
    · have : w.getLsbD (24 + i) = false := BitVec.getLsbD_of_ge _ _ (by omega)
      simp [this]
  simp only [WellFormedWord, Bool.and_eq_true, opcodeAssigned, reservedBitsClear, List.any_eq_true, List.all_eq_true,
    OpcodeRow.sharesOpcode, OpcodeRow.selects, Bool.or_eq_true, Bool.not_eq_true', beq_eq_false_iff_ne, beq_iff_eq]
  refine ⟨⟨r, hr, hw⟩, fun q hq => ?_⟩
  by_cases e : q.matchBits >>> 24 = w >>> 24
  · rw [(opcodeRows_opcode r hr).2 q hq (e.trans hw.symm)]
    exact .inr h
  · exact .inl e

end Sys2Proof
end

