-- ==== Sys2Proof/Laws/State.lean ====
section
/-!
SUPPORT. One lemma for each field of the state after each operation of Machine/Ops.lean, so that no later proof unfolds
a record update.
-/

namespace Sys2Proof.Machine

section

variable (s : State) (st code : Status) (bytes : List Byte) (b z : Byte) (w : CommandWord) (t' c' : Word)

/-! ## `respond` -/

@[simp] theorem respond_x : (respond st bytes s).x = s.x := rfl
@[simp] theorem respond_t : (respond st bytes s).t = s.t := rfl
@[simp] theorem respond_c : (respond st bytes s).c = s.c := rfl
@[simp] theorem respond_sess : (respond st bytes s).sess = s.sess := rfl
@[simp] theorem respond_dir : (respond st bytes s).dir = s.dir := rfl
@[simp] theorem respond_keycnt : (respond st bytes s).keycnt = s.keycnt := rfl
@[simp] theorem respond_kpend : (respond st bytes s).kpend = s.kpend := rfl
@[simp] theorem respond_khi : (respond st bytes s).khi = s.khi := rfl
@[simp] theorem respond_dpend : (respond st bytes s).dpend = s.dpend := rfl
@[simp] theorem respond_dhi : (respond st bytes s).dhi = s.dhi := rfl
@[simp] theorem respond_wpend : (respond st bytes s).wpend = s.wpend := rfl
@[simp] theorem respond_whi : (respond st bytes s).whi = s.whi := rfl
@[simp] theorem respond_err : (respond st bytes s).err = s.err := rfl
@[simp] theorem respond_hxpend : (respond st bytes s).hxpend = s.hxpend := rfl
@[simp] theorem respond_hxhi : (respond st bytes s).hxhi = s.hxhi := rfl
@[simp] theorem respond_inbox : (respond st bytes s).inbox = s.inbox := rfl
@[simp] theorem respond_responses : (respond st bytes s).responses = s.responses ++ [⟨st, bytes⟩] := rfl

@[simp] theorem complete_eq : complete bytes s = respond .ok bytes s := rfl
@[simp] theorem reject_eq : reject code s = respond code [] s := rfl

/-! ## `failSession` -/

@[simp] theorem failSession_x : (failSession code s).x = s.x := rfl
@[simp] theorem failSession_t : (failSession code s).t = s.t := rfl
@[simp] theorem failSession_c : (failSession code s).c = s.c := rfl
@[simp] theorem failSession_sess : (failSession code s).sess = .failed := rfl
@[simp] theorem failSession_dir : (failSession code s).dir = s.dir := rfl
@[simp] theorem failSession_keycnt : (failSession code s).keycnt = s.keycnt := rfl
@[simp] theorem failSession_kpend : (failSession code s).kpend = s.kpend := rfl
@[simp] theorem failSession_khi : (failSession code s).khi = s.khi := rfl
@[simp] theorem failSession_dpend : (failSession code s).dpend = s.dpend := rfl
@[simp] theorem failSession_dhi : (failSession code s).dhi = s.dhi := rfl
@[simp] theorem failSession_wpend : (failSession code s).wpend = s.wpend := rfl
@[simp] theorem failSession_whi : (failSession code s).whi = s.whi := rfl
@[simp] theorem failSession_err : (failSession code s).err = code := rfl
@[simp] theorem failSession_hxpend : (failSession code s).hxpend = s.hxpend := rfl
@[simp] theorem failSession_hxhi : (failSession code s).hxhi = s.hxhi := rfl
@[simp] theorem failSession_inbox : (failSession code s).inbox = s.inbox := rfl
@[simp] theorem failSession_responses : (failSession code s).responses = s.responses ++ [⟨code, []⟩] := rfl

/-! ## `clearSession` -/

@[simp] theorem clearSession_x : (clearSession s).x = #v[0, 0, 0, 0, 0, 0, 0, 0] := rfl
@[simp] theorem clearSession_t : (clearSession s).t = 0 := rfl
@[simp] theorem clearSession_c : (clearSession s).c = 0 := rfl
@[simp] theorem clearSession_sess : (clearSession s).sess = s.sess := rfl
@[simp] theorem clearSession_dir : (clearSession s).dir = .enc := rfl
@[simp] theorem clearSession_keycnt : (clearSession s).keycnt = 0 := rfl
@[simp] theorem clearSession_kpend : (clearSession s).kpend = false := rfl
@[simp] theorem clearSession_khi : (clearSession s).khi = 0 := rfl
@[simp] theorem clearSession_dpend : (clearSession s).dpend = false := rfl
@[simp] theorem clearSession_dhi : (clearSession s).dhi = 0 := rfl
@[simp] theorem clearSession_wpend : (clearSession s).wpend = false := rfl
@[simp] theorem clearSession_whi : (clearSession s).whi = 0 := rfl
@[simp] theorem clearSession_err : (clearSession s).err = .ok := rfl
@[simp] theorem clearSession_hxpend : (clearSession s).hxpend = s.hxpend := rfl
@[simp] theorem clearSession_hxhi : (clearSession s).hxhi = s.hxhi := rfl
@[simp] theorem clearSession_inbox : (clearSession s).inbox = s.inbox := rfl
@[simp] theorem clearSession_responses : (clearSession s).responses = s.responses := rfl

/-! ## `keyWrite` -/

@[simp] theorem keyWrite_x : (keyWrite b s).x = s.x.set (keyWordIndex s.keycnt) (if s.keycnt.getLsbD 0 then
    joinBytes (highByte s.x[keyWordIndex s.keycnt]) b else joinBytes b (lowByte s.x[keyWordIndex s.keycnt])) := rfl
@[simp] theorem keyWrite_t : (keyWrite b s).t = s.t := rfl
@[simp] theorem keyWrite_c : (keyWrite b s).c = s.c := rfl
@[simp] theorem keyWrite_sess : (keyWrite b s).sess = s.sess := rfl
@[simp] theorem keyWrite_dir : (keyWrite b s).dir = s.dir := rfl
@[simp] theorem keyWrite_keycnt : (keyWrite b s).keycnt = s.keycnt + 1 := rfl
@[simp] theorem keyWrite_kpend : (keyWrite b s).kpend = s.kpend := rfl
@[simp] theorem keyWrite_khi : (keyWrite b s).khi = s.khi := rfl
@[simp] theorem keyWrite_dpend : (keyWrite b s).dpend = s.dpend := rfl
@[simp] theorem keyWrite_dhi : (keyWrite b s).dhi = s.dhi := rfl
@[simp] theorem keyWrite_wpend : (keyWrite b s).wpend = s.wpend := rfl
@[simp] theorem keyWrite_whi : (keyWrite b s).whi = s.whi := rfl
@[simp] theorem keyWrite_err : (keyWrite b s).err = s.err := rfl
@[simp] theorem keyWrite_hxpend : (keyWrite b s).hxpend = s.hxpend := rfl
@[simp] theorem keyWrite_hxhi : (keyWrite b s).hxhi = s.hxhi := rfl
@[simp] theorem keyWrite_inbox : (keyWrite b s).inbox = s.inbox := rfl
@[simp] theorem keyWrite_responses : (keyWrite b s).responses = s.responses := rfl

/-! ## `setAccumulators` and `runGen` -/

@[simp] theorem setAccumulators_x : (setAccumulators t' c' s).x = s.x := rfl
@[simp] theorem setAccumulators_t : (setAccumulators t' c' s).t = t' := rfl
@[simp] theorem setAccumulators_c : (setAccumulators t' c' s).c = c' := rfl
@[simp] theorem setAccumulators_sess : (setAccumulators t' c' s).sess = s.sess := rfl
@[simp] theorem setAccumulators_dir : (setAccumulators t' c' s).dir = s.dir := rfl
@[simp] theorem setAccumulators_keycnt : (setAccumulators t' c' s).keycnt = s.keycnt := rfl
@[simp] theorem setAccumulators_kpend : (setAccumulators t' c' s).kpend = s.kpend := rfl
@[simp] theorem setAccumulators_khi : (setAccumulators t' c' s).khi = s.khi := rfl
@[simp] theorem setAccumulators_dpend : (setAccumulators t' c' s).dpend = s.dpend := rfl
@[simp] theorem setAccumulators_dhi : (setAccumulators t' c' s).dhi = s.dhi := rfl
@[simp] theorem setAccumulators_wpend : (setAccumulators t' c' s).wpend = s.wpend := rfl
@[simp] theorem setAccumulators_whi : (setAccumulators t' c' s).whi = s.whi := rfl
@[simp] theorem setAccumulators_err : (setAccumulators t' c' s).err = s.err := rfl
@[simp] theorem setAccumulators_hxpend : (setAccumulators t' c' s).hxpend = s.hxpend := rfl
@[simp] theorem setAccumulators_hxhi : (setAccumulators t' c' s).hxhi = s.hxhi := rfl
@[simp] theorem setAccumulators_inbox : (setAccumulators t' c' s).inbox = s.inbox := rfl
@[simp] theorem setAccumulators_responses : (setAccumulators t' c' s).responses = s.responses := rfl

@[simp] theorem runGen_eq :
    runGen s = ((gen s.x s.t s.c).q, setAccumulators (gen s.x s.t s.c).t (gen s.x s.t s.c).c s) := rfl

/-! ## `feed` -/

@[simp] theorem feed_x : (feed b s).x = feedArray b s.x := rfl
@[simp] theorem feed_t : (feed b s).t = s.t := rfl
@[simp] theorem feed_c : (feed b s).c = s.c := rfl
@[simp] theorem feed_sess : (feed b s).sess = s.sess := rfl
@[simp] theorem feed_dir : (feed b s).dir = s.dir := rfl
@[simp] theorem feed_keycnt : (feed b s).keycnt = s.keycnt := rfl
@[simp] theorem feed_kpend : (feed b s).kpend = s.kpend := rfl
@[simp] theorem feed_khi : (feed b s).khi = s.khi := rfl
@[simp] theorem feed_dpend : (feed b s).dpend = s.dpend := rfl
@[simp] theorem feed_dhi : (feed b s).dhi = s.dhi := rfl
@[simp] theorem feed_wpend : (feed b s).wpend = s.wpend := rfl
@[simp] theorem feed_whi : (feed b s).whi = s.whi := rfl
@[simp] theorem feed_err : (feed b s).err = s.err := rfl
@[simp] theorem feed_hxpend : (feed b s).hxpend = s.hxpend := rfl
@[simp] theorem feed_hxhi : (feed b s).hxhi = s.hxhi := rfl
@[simp] theorem feed_inbox : (feed b s).inbox = s.inbox := rfl
@[simp] theorem feed_responses : (feed b s).responses = s.responses := rfl

/-! ## `cipherStep` -/

/-- The step in one line: the byte fed back is the plaintext byte in both directions (R160). -/
@[simp] theorem cipherStep_eq : cipherStep z s = (z ^^^ mask (gen s.x s.t s.c).q,
    feed (Source.plaintextByte s.dir z (z ^^^ mask (gen s.x s.t s.c).q))
      (setAccumulators (gen s.x s.t s.c).t (gen s.x s.t s.c).c s)) := by
  unfold cipherStep
  cases h : s.dir <;> simp [Source.plaintextByte, h]

/-! ## `issueFirst`, `takeResponse`, `assertReset` -/

@[simp] theorem issueFirst_x : (issueFirst w s).x = s.x := rfl
@[simp] theorem issueFirst_t : (issueFirst w s).t = s.t := rfl
@[simp] theorem issueFirst_c : (issueFirst w s).c = s.c := rfl
@[simp] theorem issueFirst_sess : (issueFirst w s).sess = s.sess := rfl
@[simp] theorem issueFirst_dir : (issueFirst w s).dir = s.dir := rfl
@[simp] theorem issueFirst_keycnt : (issueFirst w s).keycnt = s.keycnt := rfl
@[simp] theorem issueFirst_kpend : (issueFirst w s).kpend = s.kpend := rfl
@[simp] theorem issueFirst_khi : (issueFirst w s).khi = s.khi := rfl
@[simp] theorem issueFirst_dpend : (issueFirst w s).dpend = s.dpend := rfl
@[simp] theorem issueFirst_dhi : (issueFirst w s).dhi = s.dhi := rfl
@[simp] theorem issueFirst_wpend : (issueFirst w s).wpend = s.wpend := rfl
@[simp] theorem issueFirst_whi : (issueFirst w s).whi = s.whi := rfl
@[simp] theorem issueFirst_err : (issueFirst w s).err = s.err := rfl
@[simp] theorem issueFirst_hxpend : (issueFirst w s).hxpend = s.hxpend := rfl
@[simp] theorem issueFirst_hxhi : (issueFirst w s).hxhi = s.hxhi := rfl
@[simp] theorem issueFirst_inbox : (issueFirst w s).inbox = .command w :: s.inbox := rfl
@[simp] theorem issueFirst_responses : (issueFirst w s).responses = s.responses := rfl

@[simp] theorem takeResponse_x : (takeResponse s).x = s.x := rfl
@[simp] theorem takeResponse_t : (takeResponse s).t = s.t := rfl
@[simp] theorem takeResponse_c : (takeResponse s).c = s.c := rfl
@[simp] theorem takeResponse_sess : (takeResponse s).sess = s.sess := rfl
@[simp] theorem takeResponse_dir : (takeResponse s).dir = s.dir := rfl
@[simp] theorem takeResponse_keycnt : (takeResponse s).keycnt = s.keycnt := rfl
@[simp] theorem takeResponse_kpend : (takeResponse s).kpend = s.kpend := rfl
@[simp] theorem takeResponse_khi : (takeResponse s).khi = s.khi := rfl
@[simp] theorem takeResponse_dpend : (takeResponse s).dpend = s.dpend := rfl
@[simp] theorem takeResponse_dhi : (takeResponse s).dhi = s.dhi := rfl
@[simp] theorem takeResponse_wpend : (takeResponse s).wpend = s.wpend := rfl
@[simp] theorem takeResponse_whi : (takeResponse s).whi = s.whi := rfl
@[simp] theorem takeResponse_err : (takeResponse s).err = s.err := rfl
@[simp] theorem takeResponse_hxpend : (takeResponse s).hxpend = s.hxpend := rfl
@[simp] theorem takeResponse_hxhi : (takeResponse s).hxhi = s.hxhi := rfl
@[simp] theorem takeResponse_inbox : (takeResponse s).inbox = s.inbox := rfl
@[simp] theorem takeResponse_responses : (takeResponse s).responses = s.responses.tail := rfl

@[simp] theorem assertReset_x : (assertReset s).x = State.reset.x := rfl
@[simp] theorem assertReset_t : (assertReset s).t = State.reset.t := rfl
@[simp] theorem assertReset_c : (assertReset s).c = State.reset.c := rfl
@[simp] theorem assertReset_sess : (assertReset s).sess = State.reset.sess := rfl
@[simp] theorem assertReset_dir : (assertReset s).dir = State.reset.dir := rfl
@[simp] theorem assertReset_keycnt : (assertReset s).keycnt = State.reset.keycnt := rfl
@[simp] theorem assertReset_kpend : (assertReset s).kpend = State.reset.kpend := rfl
@[simp] theorem assertReset_khi : (assertReset s).khi = State.reset.khi := rfl
@[simp] theorem assertReset_dpend : (assertReset s).dpend = State.reset.dpend := rfl
@[simp] theorem assertReset_dhi : (assertReset s).dhi = State.reset.dhi := rfl
@[simp] theorem assertReset_wpend : (assertReset s).wpend = State.reset.wpend := rfl
@[simp] theorem assertReset_whi : (assertReset s).whi = State.reset.whi := rfl
@[simp] theorem assertReset_err : (assertReset s).err = State.reset.err := rfl
@[simp] theorem assertReset_hxpend : (assertReset s).hxpend = State.reset.hxpend := rfl
@[simp] theorem assertReset_hxhi : (assertReset s).hxhi = State.reset.hxhi := rfl
@[simp] theorem assertReset_inbox : (assertReset s).inbox = s.inbox := rfl
@[simp] theorem assertReset_responses : (assertReset s).responses = State.reset.responses := rfl

end

end Sys2Proof.Machine
end

