-- ==== Sys2Proof/Laws/Ops.lean ====
section
/-!
SUPPORT. One lemma for each case of each check in front of a command's body (60_exceptions.md rules R205 to R207), and
one specification lemma for each operation of the keystream engine. Later proofs cite these and do not unfold the
operations.
-/

namespace Sys2Proof.Machine

section

variable {s : State} {body : State → State}

/-! ## The checks -/

theorem gated_opened (h : s.sess = .opened) : gated body s = body s := by simp [gated, sessionGate, h]

theorem gated_idle (h : s.sess = .idle) : gated body s = respond .eNosess [] s := by simp [gated, sessionGate, h]

theorem gated_failed (h : s.sess = .failed) : gated body s = respond .eFailed [] s := by
  simp [gated, sessionGate, h]

theorem inMode_same {d : Direction} (h : s.dir = d) : inMode d body s = body s := by simp [inMode, modeCheck, h]

theorem inMode_other {d : Direction} (h : s.dir ≠ d) : inMode d body s = failSession .eMode s := by
  simp [inMode, modeCheck, h]

theorem withKey_pending (h : s.kpend = true) : withKey body s = failSession .eHex s := by
  simp [withKey, keyReady, h]

theorem withKey_short (h : s.kpend = false) (hk : s.keycnt ≠ 16) : withKey body s = failSession .eKeylen s := by
  have hk' : ¬ s.keycnt = BitVec.ofNat 5 Config.keylen := hk
  simp [withKey, keyReady, h, hk']

theorem withKey_ready (h : s.kpend = false) (hk : s.keycnt = 16) : withKey body s = body s := by
  simp [withKey, keyReady, h, hk, Config.keylen]

theorem withDigit_some {h : Word} {v : Nibble} {f : Nibble → State → State} (hv : hexVal h = some v) :
    withDigit h f s = f v s := by
  simp [withDigit, hv]

theorem withDigit_none {h : Word} {f : Nibble → State → State} (hv : hexVal h = none) :
    withDigit h f s = failSession .eHex s := by
  simp [withDigit, hv]

/-- All that the gate can do: reject in IDLE or FAILED, or run the body in OPEN. -/
theorem gated_cases : (s.sess = .idle ∧ gated body s = respond .eNosess [] s) ∨
    (s.sess = .failed ∧ gated body s = respond .eFailed [] s) ∨ (s.sess = .opened ∧ gated body s = body s) := by
  cases h : s.sess
  · exact .inl ⟨rfl, gated_idle h⟩
  · exact .inr (.inr ⟨rfl, gated_opened h⟩)
  · exact .inr (.inl ⟨rfl, gated_failed h⟩)

/-- All that the key-ready check can do. -/
theorem withKey_cases : (s.kpend = true ∧ withKey body s = failSession .eHex s) ∨
    (s.kpend = false ∧ s.keycnt ≠ 16 ∧ withKey body s = failSession .eKeylen s) ∨
    (s.kpend = false ∧ s.keycnt = 16 ∧ withKey body s = body s) := by
  cases h : s.kpend
  · by_cases hk : s.keycnt = 16
    · exact .inr (.inr ⟨rfl, hk, withKey_ready h hk⟩)
    · exact .inr (.inl ⟨rfl, hk, withKey_short h hk⟩)
  · exact .inl ⟨rfl, withKey_pending h⟩

/-- All that the mode check can do. -/
theorem inMode_cases (d : Direction) : (s.dir ≠ d ∧ inMode d body s = failSession .eMode s) ∨
    (s.dir = d ∧ inMode d body s = body s) := by
  by_cases h : s.dir = d
  · exact .inr ⟨h, inMode_same h⟩
  · exact .inl ⟨h, inMode_other h⟩

/-- All that the character check of a session command can do. -/
theorem withDigit_cases (h : Word) (f : Nibble → State → State) :
    (hexVal h = none ∧ withDigit h f s = failSession .eHex s) ∨
    (∃ v, hexVal h = some v ∧ withDigit h f s = f v s) := by
  cases hv : hexVal h with
  | none => exact .inl ⟨rfl, withDigit_none hv⟩
  | some v => exact .inr ⟨v, rfl, withDigit_some hv⟩

end

/-! ## Keystream engine -/

/-- The rounds are `NROUNDS` in number (R6). -/
theorem roundIndices_length : roundIndices.length = Config.nrounds := rfl

/-- The two forms R131 gives the mask. -/
theorem mask_eq (q : Word) : mask q = maskOf q := by
  simp only [mask, maskOf]
  ext i hi
  simp [BitVec.getElem_setWidth, BitVec.getElem_extractLsb', Bool.xor_comm]
  have : i < 8 := hi
  interval_cases i <;> simp

/-- `U * 257 = {U, U}` (R132). -/
theorem narrow_kfeed (u : Byte) : narrow (u.toNat * Config.kfeed) = u ++ u := by
  apply BitVec.eq_of_toNat_eq
  have hu := u.isLt
  have h : (u ++ u).toNat = u.toNat * 256 + u.toNat := by
    rw [BitVec.toNat_append, ← Nat.shiftLeft_add_eq_or_of_lt hu, Nat.shiftLeft_eq]
  rw [h, narrow, Config.kfeed, BitVec.toNat_ofNat]
  omega

theorem feedArray_eq (u : Byte) (x : Vector Word 8) : feedArray u x = broadcastXor u x := by
  simp [feedArray, broadcastXor, narrow_kfeed]

@[simp] theorem feedArray_getElem (u : Byte) (x : Vector Word 8) (i : Nat) (hi : i < 8) :
    (feedArray u x)[i] = x[i] ^^^ (u ++ u) := by
  simp [feedArray, narrow_kfeed]

/-! ## Key loading -/

theorem highByte_joinBytes (a b : Byte) : highByte (joinBytes a b) = a := by
  ext i hi
  simp only [highByte, joinBytes, BitVec.getElem_extractLsb', BitVec.getLsbD_append]
  simp [BitVec.getLsbD_eq_getElem hi]

theorem lowByte_joinBytes (a b : Byte) : lowByte (joinBytes a b) = b := by
  ext i hi
  simp only [lowByte, joinBytes, BitVec.getElem_extractLsb', BitVec.getLsbD_append]
  simp [hi]

/-- The word of key byte `k` is `k >> 1` (R51). -/
theorem keyWordIndex_eq (keycnt : BitVec 5) (k : Fin 16) (h : keycnt.toNat = k.val) :
    (keyWordIndex keycnt).val = k.val / 2 := by
  revert keycnt k; decide

theorem keycnt_parity (keycnt : BitVec 5) (k : Fin 16) (h : keycnt.toNat = k.val) :
    keycnt.getLsbD 0 = decide (k.val % 2 = 1) := by
  revert keycnt k; decide

/-- `KeyWrite` puts the byte at position `KEYCNT` (R130, R51). -/
theorem keyWrite_at (b : Byte) (s : State) (k : Fin 16) (h : s.keycnt.toNat = k.val) :
    keyByteAt (keyWrite b s).x k = b := by
  have hi := keyWordIndex_eq _ _ h
  have ho := keycnt_parity _ _ h
  simp only [keyByteAt, keyWrite_x, Vector.getElem_set, ho, hi, if_true]
  rcases Nat.mod_two_eq_zero_or_one k.val with h1 | h1 <;> simp [h1, highByte_joinBytes, lowByte_joinBytes]

/-- `KeyWrite` leaves every other key byte. -/
theorem keyWrite_other (b : Byte) (s : State) (k j : Fin 16) (h : s.keycnt.toNat = k.val) (hj : j ≠ k) :
    keyByteAt (keyWrite b s).x j = keyByteAt s.x j := by
  have hi := keyWordIndex_eq _ _ h
  have ho := keycnt_parity _ _ h
  have hne : j.val ≠ k.val := fun e => hj (Fin.ext e)
  simp only [keyByteAt, keyWrite_x, Vector.getElem_set, ho, hi]
  by_cases hk : k.val / 2 = j.val / 2
  · have e : s.x[keyWordIndex s.keycnt] = s.x[j.val / 2] := by
      show s.x[(keyWordIndex s.keycnt).val] = _
      congr 1; omega
    rcases Nat.mod_two_eq_zero_or_one k.val with h1 | h1 <;>
      rcases Nat.mod_two_eq_zero_or_one j.val with h2 | h2 <;>
      simp [h1, h2, highByte_joinBytes, lowByte_joinBytes, hk, e] <;> omega
  · simp [hk]

/-! ## Pairing decrypted bytes -/

/-- All that `pairCodeUnit` can do. -/
theorem pairCodeUnit_cases (p : Byte) (s : State) :
    (s.wpend = true ∧ pairCodeUnit p s = respond .ok [s.whi, p] { s with wpend := false }) ∨
    (s.wpend = false ∧ pairCodeUnit p s = respond .ok [] { s with whi := p, wpend := true }) := by
  cases h : s.wpend
  · exact .inr ⟨rfl, by simp [pairCodeUnit, h]⟩
  · exact .inl ⟨rfl, by simp [pairCodeUnit, h]⟩

end Sys2Proof.Machine
end

