-- ==== Sys2Proof/Laws/Exec.lean ====
section
/-!
SUPPORT. What a command can do, said once: it is rejected, it fails the session, or it has its own effect. Every
statement about next states is derived from `exec_cases`, without unfolding a meaning.
-/

namespace Sys2Proof.Machine

/-- The command's own effect: the next state when none of its checks rejects it or fails the session. -/
def OwnEffect (s t : State) : Instr → Prop
  | .nop => t = respond .ok [] s
  | .scOpen d => t = respond .ok [] { clearSession s with dir := d, sess := .opened }
  | .scClose => s.sess ≠ .idle ∧ t = respond (closeStatus s) [] { clearSession s with sess := .idle }
  | .scKeyhex h => s.sess = .opened ∧ ∃ v, hexVal h = some v ∧
      ((s.kpend = false ∧ t = respond .ok [] { s with khi := v, kpend := true }) ∨
        (s.kpend = true ∧ s.keycnt ≠ 16 ∧
          t = respond .ok [] { keyWrite (joinNibbles s.khi v) s with kpend := false }))
  | .scByte b => Ready s ∧ t = respond .ok [(cipherStep b s).1] (cipherStep b s).2
  | .scEncu h => Ready s ∧ s.dir = .enc ∧ ∃ p q, p = cipherStep (highByte h) s ∧ q = cipherStep (lowByte h) p.2 ∧
      t = respond .ok (hexPair p.1 ++ hexPair q.1) q.2
  | .scDech h => Ready s ∧ s.dir = .dec ∧ ∃ v, hexVal h = some v ∧
      ((s.dpend = false ∧ t = respond .ok [] { s with dhi := v, dpend := true }) ∨
        (s.dpend = true ∧ ∃ p, p = cipherStep (joinNibbles s.dhi v) { s with dpend := false } ∧
          t = pairCodeUnit p.1 p.2))
  | .ksKeyb b => s.sess = .opened ∧ s.kpend = false ∧ s.keycnt ≠ 16 ∧ t = respond .ok [] (keyWrite b s)
  | .ksGen => Ready s ∧ ∃ p, p = runGen s ∧ t = respond .ok [highByte p.1, lowByte p.1, mask p.1] p.2
  | .ksFeed b => Ready s ∧ t = respond .ok [] (feed b s)
  | .hxDnib h => ∃ v, hexVal h = some v ∧ t = respond .ok [v.setWidth 8] s
  | .hxEnib n => t = respond .ok [hexChr n] s
  | .hxDchr h => (hexVal h = none ∧ t = respond .eHex [] { s with hxpend := false }) ∨
      ∃ v, hexVal h = some v ∧
        ((s.hxpend = false ∧ t = respond .ok [] { s with hxhi := v, hxpend := true }) ∨
          (s.hxpend = true ∧ t = respond .ok [joinNibbles s.hxhi v] { s with hxpend := false }))
  | .hxDend => (s.hxpend = true ∧ t = respond .eHex [] { s with hxpend := false }) ∨
      (s.hxpend = false ∧ t = respond .ok [] s)
  | .hxEbyt b => t = respond .ok (hexPair b) s

/-- A command turned away with no register written (R203). -/
def TurnedAway (s t : State) (i : Instr) : Prop := ∃ code, t = respond code [] s ∧
  ((s.sess = .idle ∧ code = .eNosess ∧ (isGated i.opcode = true ∨ i = .scClose)) ∨
    (s.sess = .failed ∧ code = .eFailed ∧ isGated i.opcode = true) ∨
    (∃ h, i = .hxDnib h ∧ hexVal h = none ∧ code = .eHex))

/-- A command that fails an OPEN session (R204). -/
def FailsSession (s t : State) (i : Instr) : Prop := ∃ code, t = failSession code s ∧ s.sess = .opened ∧
  isGated i.opcode = true ∧
    (code = .eKeylen ∨ code = .eHex ∨ (code = .eMode ∧ (i.opcode = .scEncu ∨ i.opcode = .scDech)))

section

variable {i : Instr} {s t : State}

/-- One gated command whose body, in an OPEN session, fails it or has its own effect. -/
theorem gated_command {body : State → State} (hi : isGated i.opcode = true)
    (hb : s.sess = .opened → FailsSession s (body s) i ∨ OwnEffect s (body s) i)
    (h : Host.Outcome.next (φ := Fault) (ρ := Refusal) (gated body s) = .next t) :
    TurnedAway s t i ∨ FailsSession s t i ∨ OwnEffect s t i := by
  obtain rfl : gated body s = t := by simpa using h
  rcases gated_cases (s := s) (body := body) with ⟨hs, e⟩ | ⟨hs, e⟩ | ⟨hs, e⟩ <;> rw [e]
  · exact .inl ⟨_, rfl, .inl ⟨hs, rfl, .inl hi⟩⟩
  · exact .inl ⟨_, rfl, .inr (.inl ⟨hs, rfl, hi⟩)⟩
  · exact .inr (hb hs)

/-- The key-ready check in front of a body. -/
theorem withKey_command {body : State → State} (hi : isGated i.opcode = true) (hs : s.sess = .opened)
    (hb : Ready s → FailsSession s (body s) i ∨ OwnEffect s (body s) i) :
    FailsSession s (withKey body s) i ∨ OwnEffect s (withKey body s) i := by
  rcases withKey_cases (s := s) (body := body) with ⟨_, e⟩ | ⟨_, _, e⟩ | ⟨hp, hk, e⟩ <;> rw [e]
  · exact .inl ⟨_, rfl, hs, hi, .inr (.inl rfl)⟩
  · exact .inl ⟨_, rfl, hs, hi, .inl rfl⟩
  · exact hb ⟨hs, hp, hk⟩

/-- All that a command can do. -/
theorem exec_cases (h : exec i s = .next t) : TurnedAway s t i ∨ FailsSession s t i ∨ OwnEffect s t i := by
  cases i with
  | nop => exact .inr (.inr (by simpa [exec, execNop, OwnEffect, eq_comm] using h))
  | scOpen d => exact .inr (.inr (by simpa [exec, execScOpen, OwnEffect, eq_comm] using h))
  | scClose =>
    by_cases hs : s.sess = .idle
    · refine .inl ⟨.eNosess, ?_, .inl ⟨hs, rfl, .inr rfl⟩⟩
      simpa [exec, execScClose, hs, eq_comm] using h
    · refine .inr (.inr ⟨hs, ?_⟩)
      simpa [exec, execScClose, hs, eq_comm] using h
  | scKeyhex c =>
    refine gated_command rfl (fun hs => ?_) h
    rcases withDigit_cases (s := s) c _ with ⟨_, e⟩ | ⟨v, hv, e⟩ <;> rw [e]
    · exact .inl ⟨_, rfl, hs, rfl, .inr (.inl rfl)⟩
    · cases hp : s.kpend
      · exact .inr ⟨hs, v, hv, .inl ⟨hp, by simp⟩⟩
      · by_cases hk : s.keycnt = BitVec.ofNat 5 Config.keylen
        · exact .inl ⟨.eKeylen, by simp [hk], hs, rfl, .inl rfl⟩
        · exact .inr ⟨hs, v, hv, .inr ⟨hp, hk, by simp [hk]⟩⟩
  | scByte b =>
    exact gated_command rfl (fun hs => withKey_command rfl hs fun hr => .inr ⟨hr, rfl⟩) h
  | scEncu c =>
    refine gated_command rfl (fun hs => ?_) h
    rcases inMode_cases (s := s) .enc with ⟨_, e⟩ | ⟨hd, e⟩ <;> rw [e]
    · exact .inl ⟨_, rfl, hs, rfl, .inr (.inr ⟨rfl, .inl rfl⟩)⟩
    · exact withKey_command rfl hs fun hr => .inr ⟨hr, hd, _, _, rfl, rfl, rfl⟩
  | scDech c =>
    refine gated_command rfl (fun hs => ?_) h
    rcases inMode_cases (s := s) .dec with ⟨_, e⟩ | ⟨hd, e⟩ <;> rw [e]
    · exact .inl ⟨_, rfl, hs, rfl, .inr (.inr ⟨rfl, .inr rfl⟩)⟩
    · refine withKey_command rfl hs fun hr => ?_
      rcases withDigit_cases (s := s) c _ with ⟨_, e'⟩ | ⟨v, hv, e'⟩ <;> rw [e']
      · exact .inl ⟨_, rfl, hs, rfl, .inr (.inl rfl)⟩
      · cases hp : s.dpend
        · exact .inr ⟨hr, hd, v, hv, .inl ⟨hp, by simp⟩⟩
        · exact .inr ⟨hr, hd, v, hv, .inr ⟨hp, _, rfl, by simp⟩⟩
  | ksKeyb b =>
    refine gated_command rfl (fun hs => ?_) h
    cases hp : s.kpend
    · by_cases hk : s.keycnt = BitVec.ofNat 5 Config.keylen
      · exact .inl ⟨.eKeylen, by simp [hk], hs, rfl, .inl rfl⟩
      · exact .inr ⟨hs, hp, hk, by simp [hk]⟩
    · exact .inl ⟨.eHex, by simp, hs, rfl, .inr (.inl rfl)⟩
  | ksGen => exact gated_command rfl (fun hs => withKey_command rfl hs fun hr => .inr ⟨hr, _, rfl, rfl⟩) h
  | ksFeed b => exact gated_command rfl (fun hs => withKey_command rfl hs fun hr => .inr ⟨hr, rfl⟩) h
  | hxDnib c =>
    cases hv : hexVal c with
    | none => exact .inl ⟨.eHex, by simpa [exec, execHxDnib, hv, eq_comm] using h, .inr (.inr ⟨c, rfl, hv, rfl⟩)⟩
    | some v => exact .inr (.inr ⟨v, hv, by simpa [exec, execHxDnib, hv, eq_comm] using h⟩)
  | hxEnib n => exact .inr (.inr (by simpa [exec, execHxEnib, OwnEffect, eq_comm] using h))
  | hxDchr c =>
    refine .inr (.inr ?_)
    cases hv : hexVal c with
    | none => exact .inl ⟨hv, by simpa [exec, execHxDchr, hv, eq_comm] using h⟩
    | some v =>
      refine .inr ⟨v, hv, ?_⟩
      cases hp : s.hxpend
      · exact .inl ⟨rfl, by simpa [exec, execHxDchr, hv, hp, eq_comm] using h⟩
      · exact .inr ⟨rfl, by simpa [exec, execHxDchr, hv, hp, eq_comm] using h⟩
  | hxDend =>
    refine .inr (.inr ?_)
    cases hp : s.hxpend
    · exact .inr ⟨hp, by simpa [exec, execHxDend, hp, eq_comm] using h⟩
    · exact .inl ⟨hp, by simpa [exec, execHxDend, hp, eq_comm] using h⟩
  | hxEbyt b => exact .inr (.inr (by simpa [exec, execHxEbyt, OwnEffect, eq_comm] using h))

end

/-! ## The step -/

/-- All that a step can do: wait, hand over a response, reset, run a command, or refuse an illegal word. -/
theorem step_cases {s t : State} (h : step s = .next t) :
    (s.inbox = [] ∧ t = s) ∨
    (∃ rest, s.inbox = .take :: rest ∧ t = takeResponse { s with inbox := rest }) ∨
    (∃ rest, s.inbox = .reset :: rest ∧ t = assertReset { s with inbox := rest }) ∨
    (∃ w rest i, s.inbox = .command w :: rest ∧ decode w = .command i ∧ exec i { s with inbox := rest } = .next t) ∨
    (∃ w rest why, s.inbox = .command w :: rest ∧ decode w = .illegal why ∧
      t = respond .eIllegal [] { s with inbox := rest }) := by
  cases hb : s.inbox with
  | nil => exact .inl ⟨rfl, by simpa [step, nextEvent, hb, eq_comm] using h⟩
  | cons e rest =>
    cases e with
    | take => exact .inr (.inl ⟨rest, rfl, by simpa [step, nextEvent, hb, eq_comm] using h⟩)
    | reset => exact .inr (.inr (.inl ⟨rest, rfl, by simpa [step, nextEvent, hb, eq_comm] using h⟩))
    | command w =>
      cases hd : decode w with
      | command i =>
        exact .inr (.inr (.inr (.inl ⟨w, rest, i, rfl, hd, by simpa [step, nextEvent, hb, hd] using h⟩)))
      | illegal why =>
        exact .inr (.inr (.inr (.inr ⟨w, rest, why, rfl, hd, by
          simpa [step, nextEvent, hb, hd, illegalWord, eq_comm] using h⟩)))

/-! ## Every command answers -/

/-- No command stops: `exec` answers a next state. -/
theorem exec_answers (i : Instr) (s : State) : ∃ t, exec i s = .next t := by
  cases i with
  | hxDnib h => cases hv : hexVal h <;> exact ⟨_, by simp only [exec, execHxDnib, hv]; rfl⟩
  | hxDchr h =>
    cases hv : hexVal h with
    | none => exact ⟨_, by simp only [exec, execHxDchr, hv]; rfl⟩
    | some v => cases hp : s.hxpend <;> exact ⟨_, by simp only [exec, execHxDchr, hv, hp]; rfl⟩
  | hxDend => cases hp : s.hxpend <;> exact ⟨_, by simp only [exec, execHxDend, hp]; rfl⟩
  | scClose => by_cases hs : s.sess = .idle <;> exact ⟨_, by simp only [exec, execScClose, hs, if_true, if_false]; rfl⟩
  | _ => exact ⟨_, rfl⟩

/-! ## Runs -/

@[simp] theorem runSteps_zero (s : State) : runSteps 0 s = .next s := rfl

theorem runSteps_succ {n : Nat} {s t : State} (h : step s = .next t) : runSteps (n + 1) s = runSteps n t := by
  have h' : Sys2Proof.core.step s = .next t := h
  simp only [runSteps, Host.Core.run, h']
  rfl

@[simp] theorem runInstrs_nil (s : State) : runInstrs [] s = .next s := rfl

theorem runInstrs_cons {i : Instr} {rest : List Instr} {s t : State} (h : exec i s = .next t) :
    runInstrs (i :: rest) s = runInstrs rest t := by
  simp only [runInstrs, h]

theorem runInstrs_append {is js : List Instr} {s t : State} (h : runInstrs is s = .next t) :
    runInstrs (is ++ js) s = runInstrs js t := by
  induction is generalizing s with
  | nil => simp only [runInstrs_nil, Host.Outcome.next.injEq] at h; simp [h]
  | cons i rest ih =>
    obtain ⟨u, hu⟩ := exec_answers i s
    rw [runInstrs_cons hu] at h
    rw [List.cons_append, runInstrs_cons hu, ih h]

end Sys2Proof.Machine
end

