-- ==== Sys2Proof/Laws/PerInstr.lean ====
section
/-!
SUPPORT. Statements made once for each command. `WordSelectsRow`: the encoder's word selects the row that
spec/opcode_table.json gives the command, whatever its operand, and so is well formed (30_encoding.md rules R75, R76).
-/

namespace Sys2Proof.Laws.WordSelectsRow

/-- The command's word selects a row of the opcode map that has the command's opcode, and is well formed. -/
def Statement (i : Instr) : Prop :=
  (∃ r ∈ opcodeRows, r.opcode = i.opcode ∧ r.selects (encode i) = true) ∧ WellFormedWord (encode i) = true

theorem of_row {i : Instr} (r : OpcodeRow) (hr : r ∈ opcodeRows) (ho : r.opcode = i.opcode)
    (h : encode i &&& r.mask = r.matchBits) : Statement i :=
  ⟨⟨r, hr, ho, by simpa [OpcodeRow.selects] using h⟩, wellFormed_of_selects hr h⟩

theorem append_zero (a : Byte) : (a ++ 0#8 ++ 0#16 : CommandWord) = a ++ 0#24 := by
  ext i hi
  simp only [BitVec.getElem_append]
  by_cases h : i < 16
  · have : i < 24 := by omega
    simp [h, this]
  · by_cases h2 : i < 24
    · have : i - 16 < 8 := by omega
      simp [h, h2, this]
    · have h3 : ¬ i - 16 < 8 := by omega
      have h4 : i - 16 - 8 = i - 24 := by omega
      simp [h, h2, h3, h4]

/-- A word of class B with its byte masked away. -/
theorem mask_byte (a : Byte) (b : Byte) : (a ++ 0x00#8 ++ (0#8 ++ b) : CommandWord) &&& 0xFFFFFF00 = a ++ 0#24 := by
  have e : (0xFFFFFF00 : CommandWord) = 0xFF#8 ++ 0xFF#8 ++ (0xFF#8 ++ 0x00#8) := rfl
  have ha : a &&& 0xFF#8 = a := BitVec.and_allOnes
  have hb : b &&& 0x00#8 = 0x00#8 := BitVec.and_zero
  have hd : ((0#8 ++ b : Word) &&& (0xFF#8 ++ 0x00#8)) = 0x0000#16 := by
    rw [BitVec.and_append, hb]
    rfl
  rw [e, and_fields, ha, hd]
  exact append_zero a

/-- A word of class H with its half masked away. -/
theorem mask_half (a : Byte) (h : Word) : (a ++ 0x00#8 ++ h : CommandWord) &&& 0xFFFF0000 = a ++ 0#24 := by
  have e : (0xFFFF0000 : CommandWord) = 0xFF#8 ++ 0xFF#8 ++ 0x0000#16 := rfl
  have ha : a &&& 0xFF#8 = a := BitVec.and_allOnes
  have hh : h &&& 0x0000#16 = 0x0000#16 := BitVec.and_zero
  rw [e, and_fields, ha, hh]
  exact append_zero a

theorem nop : Statement .nop := of_row ⟨.nop, 0x00000000, 0xFFFFFFFF⟩ (by decide) rfl (by decide)
theorem scOpen (dir : Direction) : Statement (.scOpen dir) :=
  of_row ⟨.scOpen, 0x01000000, 0xFFFEFFFF⟩ (by decide) rfl (by cases dir <;> decide)
theorem scClose : Statement .scClose := of_row ⟨.scClose, 0x02000000, 0xFFFFFFFF⟩ (by decide) rfl (by decide)
theorem scKeyhex (h : Word) : Statement (.scKeyhex h) :=
  of_row ⟨.scKeyhex, 0x03000000, 0xFFFF0000⟩ (by decide) rfl (mask_half 0x03 h)
theorem scByte (b : Byte) : Statement (.scByte b) :=
  of_row ⟨.scByte, 0x04000000, 0xFFFFFF00⟩ (by decide) rfl (mask_byte 0x04 b)
theorem scEncu (h : Word) : Statement (.scEncu h) :=
  of_row ⟨.scEncu, 0x05000000, 0xFFFF0000⟩ (by decide) rfl (mask_half 0x05 h)
theorem scDech (h : Word) : Statement (.scDech h) :=
  of_row ⟨.scDech, 0x06000000, 0xFFFF0000⟩ (by decide) rfl (mask_half 0x06 h)
theorem ksKeyb (b : Byte) : Statement (.ksKeyb b) :=
  of_row ⟨.ksKeyb, 0x10000000, 0xFFFFFF00⟩ (by decide) rfl (mask_byte 0x10 b)
theorem ksGen : Statement .ksGen := of_row ⟨.ksGen, 0x11000000, 0xFFFFFFFF⟩ (by decide) rfl (by decide)
theorem ksFeed (b : Byte) : Statement (.ksFeed b) :=
  of_row ⟨.ksFeed, 0x12000000, 0xFFFFFF00⟩ (by decide) rfl (mask_byte 0x12 b)
theorem hxDnib (h : Word) : Statement (.hxDnib h) :=
  of_row ⟨.hxDnib, 0x20000000, 0xFFFF0000⟩ (by decide) rfl (mask_half 0x20 h)
theorem hxEnib (n : Nibble) : Statement (.hxEnib n) :=
  of_row ⟨.hxEnib, 0x21000000, 0xFFFFFFF0⟩ (by decide) rfl (by revert n; decide)
theorem hxDchr (h : Word) : Statement (.hxDchr h) :=
  of_row ⟨.hxDchr, 0x22000000, 0xFFFF0000⟩ (by decide) rfl (mask_half 0x22 h)
theorem hxDend : Statement .hxDend := of_row ⟨.hxDend, 0x23000000, 0xFFFFFFFF⟩ (by decide) rfl (by decide)
theorem hxEbyt (b : Byte) : Statement (.hxEbyt b) :=
  of_row ⟨.hxEbyt, 0x24000000, 0xFFFFFF00⟩ (by decide) rfl (mask_byte 0x24 b)

end Sys2Proof.Laws.WordSelectsRow
end

