-- ==== Sys2Proof/Tests/Slice0.lean ====
section
/-!
SUPPORT. Tests whose expected results are the spec's own words, tables and vectors (30_encoding.md R75, R80, R82 and
95_test_vectors.md, cited at each test), and for every obligation with hypotheses a witness that meets them.
-/

namespace Sys2Proof.Tests

open Sys2Proof.Machine

/-! ## Small states and readers -/

/-- What `exec` leaves; the reset state stands for a fault or a refusal. -/
def after (i : Instr) (s : State) : State :=
  match exec i s with
  | .next t => t
  | .fault _ => State.reset
  | .refused _ => State.reset

/-- The one response a command adds to a state without responses. -/
def answer (i : Instr) (s : State) : List Response := (after i s).responses

/-- An OPEN session with key K0 loaded (95_test_vectors.md, "The keys used throughout"). -/
def k0 (d : Direction) : State := { State.reset with sess := .opened, dir := d, keycnt := 16 }

/-- An OPEN session with key KI loaded. -/
def ki (d : Direction) : State :=
  { k0 d with x := #v[0x0001, 0x0203, 0x0405, 0x0607, 0x0809, 0x0a0b, 0x0c0d, 0x0e0f] }

/-- An OPEN session right after `SC_OPEN`. -/
def fresh (d : Direction) : State := { State.reset with sess := .opened, dir := d }

/-- A FAILED session with code `E_MODE`. -/
def failed : State := { State.reset with sess := .failed, err := .eMode }

/-- An OPEN session with a complete key and a 33rd key character pending. -/
def pending (d : Direction) : State := { k0 d with kpend := true }

/-- The state with the given words as the host's next commands. -/
def withWords (ws : List CommandWord) (s : State) : State := { s with inbox := ws.map .command }

/-- What a step leaves; the reset state stands for a fault or a refusal. -/
def afterStep (s : State) : State :=
  match step s with
  | .next t => t
  | .fault _ => State.reset
  | .refused _ => State.reset

/-! ## WellFormed: an ill-formed word for each check of R76 -/

theorem test_wellformed_reserved_opcode :
    opcodeAssigned 0x40000000 = false ∧ WellFormedWord 0x40000000 = false := by decide
theorem test_wellformed_reserved_bit_byte :
    reservedBitsClear 0x04000100 = false ∧ WellFormedWord 0x04000100 = false := by decide
theorem test_wellformed_reserved_bit_mode :
    reservedBitsClear 0x01020000 = false ∧ WellFormedWord 0x01020000 = false := by decide
theorem test_wellformed_reserved_bit_nibble :
    reservedBitsClear 0x2100001B = false ∧ WellFormedWord 0x2100001B = false := by decide
theorem test_wellformed_reserved_bit_half :
    reservedBitsClear 0x05010041 = false ∧ WellFormedWord 0x05010041 = false := by decide
theorem test_wellformed_reserved_bit_none :
    reservedBitsClear 0x00000001 = false ∧ WellFormedWord 0x00000001 = false := by decide
theorem test_wellformed_legal : WellFormedWord 0x05000041 = true ∧ WellFormedWord 0x01010000 = true := by decide

/-- No word selects two rows of the opcode map: two rows differ in a bit that both masks cover. -/
theorem test_rows_do_not_overlap : opcodeRows.Pairwise fun a b =>
    a.matchBits &&& (a.mask &&& b.mask) ≠ b.matchBits &&& (a.mask &&& b.mask) := by decide

/-! ## Decoding: one word for each row, written out from R70, R72 and R75 -/

theorem test_decode_nop : decode 0b00000000_00000000_0000000000000000#32 = .command .nop := by decide
theorem test_decode_scOpen : decode 0b00000001_00000001_0000000000000000#32 = .command (.scOpen .dec) := by decide
theorem test_decode_scOpen_enc : decode 0b00000001_00000000_0000000000000000#32 = .command (.scOpen .enc) := by decide
theorem test_decode_scClose : decode 0b00000010_00000000_0000000000000000#32 = .command .scClose := by decide
theorem test_decode_scKeyhex : decode 0b00000011_00000000_1000000001100110#32 = .command (.scKeyhex 0x8066) := by decide
theorem test_decode_scByte : decode 0b00000100_00000000_0000000010000001#32 = .command (.scByte 0x81) := by decide
theorem test_decode_scEncu : decode 0b00000101_00000000_0010000010101100#32 = .command (.scEncu 0x20ac) := by decide
theorem test_decode_scDech : decode 0b00000110_00000000_0000000000110110#32 = .command (.scDech 0x0036) := by decide
theorem test_decode_ksKeyb : decode 0b00010000_00000000_0000000001000001#32 = .command (.ksKeyb 0x41) := by decide
theorem test_decode_ksGen : decode 0b00010001_00000000_0000000000000000#32 = .command .ksGen := by decide
theorem test_decode_ksFeed : decode 0b00010010_00000000_0000000001000001#32 = .command (.ksFeed 0x41) := by decide
theorem test_decode_hxDnib : decode 0b00100000_00000000_0000000100110000#32 = .command (.hxDnib 0x0130) := by decide
theorem test_decode_hxEnib : decode 0b00100001_00000000_0000000000001011#32 = .command (.hxEnib 0xb) := by decide
theorem test_decode_hxDchr : decode 0b00100010_00000000_0000000001100001#32 = .command (.hxDchr 0x0061) := by decide
theorem test_decode_hxDend : decode 0b00100011_00000000_0000000000000000#32 = .command .hxDend := by decide
theorem test_decode_hxEbyt : decode 0b00100100_00000000_0000000001001010#32 = .command (.hxEbyt 0x4a) := by decide
theorem test_decode_last_reserved : decode 0x25000000 = .illegal .reservedOpcode := by decide

/-- The table's numbering: the word is given whole, and bits above `nbits` are 0. -/
theorem test_decodeTableWord : decodeTableWord 32 0x05000041 = some (.scEncu 0x0041) ∧
    decodeTableWord 32 0x40000000 = none ∧ decodeTableWord 16 0x40000000 = some .nop := by decide

/-- The first step after reset runs the placed word (R231: `NOP` works in the reset state). -/
theorem test_withFetchWord : afterStep (State.reset.withFetchWord 32 0) =
    { State.reset with responses := [⟨.ok, []⟩] } := by decide

/-! ## Listing syntax: the examples of R80 -/

theorem test_listing_open : listing (.scOpen .dec) = ['0', '1', '0', '1', '0', '0', '0', '0', ' ', ' ',
    'S', 'C', '_', 'O', 'P', 'E', 'N', ' ', 'd', 'e', 'c'] := by decide
theorem test_listing_byte : listing (.ksKeyb 0x41) = ['1', '0', '0', '0', '0', '0', '4', '1', ' ', ' ',
    'K', 'S', '_', 'K', 'E', 'Y', 'B', ' ', '0', 'x', '4', '1'] := by decide
theorem test_listing_half : listing (.scEncu 0x0041) = ['0', '5', '0', '0', '0', '0', '4', '1', ' ', ' ',
    'S', 'C', '_', 'E', 'N', 'C', 'U', ' ', '0', 'x', '0', '0', '4', '1'] := by decide

/-! ## Hex byte codec: V-HX-1 to V-HX-4, P6 -/

theorem test_hxDnib : answer (.hxDnib 0x0046) State.reset = [⟨.ok, [0x0f]⟩] := by decide
theorem test_hxDnib_high_code : after (.hxDnib 0x0130) State.reset =
    { State.reset with responses := [⟨.eHex, []⟩] } := by decide
theorem test_hxEnib : answer (.hxEnib 0xb) State.reset = [⟨.ok, [0x62]⟩] := by decide
theorem test_hxDchr_second : after (.hxDchr 0x0061) { State.reset with hxpend := true, hxhi := 4 } =
    { State.reset with hxhi := 4, responses := [⟨.ok, [0x4a]⟩] } := by decide
theorem test_hxDchr_bad : after (.hxDchr 0x0067) { State.reset with hxpend := true, hxhi := 4 } =
    { State.reset with hxhi := 4, responses := [⟨.eHex, []⟩] } := by decide
theorem test_hxDend_odd : after .hxDend { State.reset with hxpend := true, hxhi := 4 } =
    { State.reset with hxhi := 4, responses := [⟨.eHex, []⟩] } := by decide
theorem test_hxDend_even : answer .hxDend State.reset = [⟨.ok, []⟩] := by decide
theorem test_hxEbyt : answer (.hxEbyt 0x2f) State.reset = [⟨.ok, [0x32, 0x66]⟩] := by decide

/-- V-HX-1: the codes around the three ranges of the table. -/
theorem test_hexVal_edges : hexVal 0x2f = none ∧ hexVal 0x30 = some 0 ∧ hexVal 0x39 = some 9 ∧ hexVal 0x3a = none ∧
    hexVal 0x40 = none ∧ hexVal 0x41 = some 0xa ∧ hexVal 0x46 = some 0xf ∧ hexVal 0x47 = none ∧ hexVal 0x60 = none ∧
    hexVal 0x61 = some 0xa ∧ hexVal 0x66 = some 0xf ∧ hexVal 0x67 = none ∧ hexVal 0xff = none ∧
    hexVal 0xffff = none := by decide

/-! ## Keystream engine: V-KS-1 to V-KS-6 -/

/-- V-KS-2, KI, rows 0 and 1: the values after the first two rounds. -/
theorem test_round : round (ki .enc).x { v := 0, c := 0, t := 0, q := 0 } 0 =
      { v := 0x4e36, c := 0x015a, t := 0x015a, q := 0x4f6c } ∧
    round (ki .enc).x { v := 0x4e36, c := 0x015a, t := 0x015a, q := 0x4f6c } 1 =
      { v := 0xecfa, c := 0x02d3, t := 0xffa2, q := 0xa145 } := by decide

/-- V-KS-3, KI, first output. -/
theorem test_ksGen : after .ksGen (ki .enc) =
    { ki .enc with t := 0x68ee, c := 0x3696, responses := [⟨.ok, [0x6c, 0x48, 0x24]⟩] } := by decide
/-- V-KS-3, KI, second output: `T` stays and `c` advances. -/
theorem test_ksGen_again : after .ksGen { ki .dec with t := 0x68ee, c := 0x3696 } =
    { ki .dec with t := 0x68ee, c := 0x38a2, responses := [⟨.ok, [0x8e, 0x38, 0xb6]⟩] } := by decide
/-- V-KS-4, second row. -/
theorem test_ksFeed : (after (.ksFeed 0x41) (ki .enc)).x =
    #v[0x4140, 0x4342, 0x4544, 0x4746, 0x4948, 0x4b4a, 0x4d4c, 0x4f4e] := by decide
/-- V-KS-6: `KS_FEED` with 15 key bytes. -/
theorem test_ksFeed_short : after (.ksFeed 0x41) { k0 .enc with keycnt := 15 } =
    { k0 .enc with keycnt := 15, sess := .failed, err := .eKeylen, responses := [⟨.eKeylen, []⟩] } := by decide
/-- R133's example: the first key byte takes the high half. -/
theorem test_ksKeyb_even : after (.ksKeyb 0x41) (fresh .enc) = { fresh .enc with
    x := #v[0x4100, 0, 0, 0, 0, 0, 0, 0], keycnt := 1, responses := [⟨.ok, []⟩] } := by decide
/-- The key table, KI: the sixteenth byte takes the low half of `X[7]`. -/
theorem test_ksKeyb_odd : after (.ksKeyb 0x0f) { fresh .enc with x := #v[0, 0, 0, 0, 0, 0, 0, 0x0e00], keycnt := 15 } =
    { fresh .enc with x := #v[0, 0, 0, 0, 0, 0, 0, 0x0e0f], keycnt := 16, responses := [⟨.ok, []⟩] } := by decide

/-! ## Stream-cipher executor: V-SC-1 to V-SC-9, P1 to P7 -/

theorem test_nop : after .nop failed = { failed with responses := [⟨.ok, []⟩] } := by decide
/-- V-SC-7, last row: `SC_OPEN` in an OPEN session abandons it. -/
theorem test_scOpen : after (.scOpen .dec) { ki .enc with t := 0x64be, wpend := true, hxpend := true } =
    { fresh .dec with hxpend := true, responses := [⟨.ok, []⟩] } := by decide
/-- P4: a 15-byte key, reported at `SC_CLOSE`. -/
theorem test_scClose_short : after .scClose { k0 .enc with keycnt := 15 } =
    { State.reset with responses := [⟨.eKeylen, []⟩] } := by decide
/-- P7: a trailing odd byte is dropped. -/
theorem test_scClose_odd_byte : after .scClose { k0 .dec with wpend := true, whi := 0x43 } =
    { State.reset with responses := [⟨.ok, []⟩] } := by decide
/-- R163's example, last character: the pair loads the sixteenth byte. -/
theorem test_scKeyhex : after (.scKeyhex 0x0046) { fresh .enc with keycnt := 15, kpend := true, khi := 0xa } =
    { fresh .enc with x := #v[0, 0, 0, 0, 0, 0, 0, 0x00af], keycnt := 16, khi := 0xa, responses := [⟨.ok, []⟩] } := by
  decide
/-- V-SC-9: the 34th key character. -/
theorem test_scKeyhex_too_long : after (.scKeyhex 0x0030) (pending .enc) =
    { pending .enc with sess := .failed, err := .eKeylen, responses := [⟨.eKeylen, []⟩] } := by decide
/-- V-SC-1: `SC_BYTE 0xff` after key K0. -/
theorem test_scByte_enc : after (.scByte 0xff) (k0 .enc) = { k0 .enc with
    x := #v[0xffff, 0xffff, 0xffff, 0xffff, 0xffff, 0xffff, 0xffff, 0xffff], t := 0x64be, c := 0x3dd6
    responses := [⟨.ok, [0x9b]⟩] } := by decide
/-- V-SC-8, step 2: on decrypt the output byte is fed back, and `DPEND` and `DHI` stay. -/
theorem test_scByte_dec : after (.scByte 0x25) { k0 .dec with dpend := true, dhi := 2 } = { k0 .dec with
    x := #v[0x4141, 0x4141, 0x4141, 0x4141, 0x4141, 0x4141, 0x4141, 0x4141], t := 0x64be, c := 0x3dd6
    dpend := true, dhi := 2, responses := [⟨.ok, [0x41]⟩] } := by decide
/-- P1. -/
theorem test_scEncu : after (.scEncu 0x0041) (k0 .enc) = { k0 .enc with
    x := #v[0x4141, 0x4141, 0x4141, 0x4141, 0x4141, 0x4141, 0x4141, 0x4141], t := 0x64be, c := 0x4bb2
    responses := [⟨.ok, [0x36, 0x34, 0x38, 0x38]⟩] } := by decide
/-- V-SC-7: the mode is checked before the key. -/
theorem test_scEncu_mode : after (.scEncu 0x0041) (fresh .dec) =
    { fresh .dec with sess := .failed, err := .eMode, responses := [⟨.eMode, []⟩] } := by decide
/-- P2, the second character: a byte decrypts to 00 and waits in `WHI`. -/
theorem test_scDech_byte : after (.scDech 0x0034) { k0 .dec with dpend := true, dhi := 6 } =
    { k0 .dec with dhi := 6, wpend := true, t := 0x64be, c := 0x3dd6, responses := [⟨.ok, []⟩] } := by decide
/-- P2, the fourth character: the code unit 0x0041. -/
theorem test_scDech_unit :
    after (.scDech 0x0038) { k0 .dec with dpend := true, dhi := 8, wpend := true, t := 0x64be, c := 0x3dd6 } =
    { k0 .dec with
      dhi := 8, x := #v[0x4141, 0x4141, 0x4141, 0x4141, 0x4141, 0x4141, 0x4141, 0x4141], t := 0x64be, c := 0x4bb2
      responses := [⟨.ok, [0x00, 0x41]⟩] } := by decide
/-- V-SC-7: a reserved opcode changes no register. -/
theorem test_illegal_word : afterStep (withWords [0x40000000] failed) =
    { failed with responses := [⟨.eIllegal, []⟩] } := by decide

/-! ## Witnesses: concrete states and operands that meet the hypotheses of each obligation -/

theorem witness_EncodeOfDecode : decode 0x05000041 = .command (.scEncu 0x0041) := by decide

theorem witness_WordSelectsItsTableRow : (⟨.scEncu, 0x05000000, 0xFFFF0000⟩ : OpcodeRow) ∈ opcodeRows ∧
    (0x05000041#32 &&& 0xFFFF0000 = 0x05000000) ∧ decode 0x05000041 = .command (.scEncu 0x0041) ∧
    ¬ (0x05010041#32 &&& 0xFFFF0000 = 0x05000000) := by decide

theorem witness_ReservedWordsAreIllegal :
    ((withWords [0x40000000] failed).inbox = [.command 0x40000000] ∧ opcodeOf (opcField 0x40000000) = none) ∧
    ((withWords [0x04000100] failed).inbox = [.command 0x04000100] ∧
      opcodeOf (opcField 0x04000100) = some .scByte ∧
      0x04000100#32 &&& Opcode.scByte.operandClass.reservedMask ≠ 0) := by decide

theorem witness_NopHasOneEncoding : opcField 0x00000001 = 0 ∧ (0x00000001 : CommandWord) ≠ 0 := by decide

theorem witness_StepRunsDecodedCommand : (withWords [0x05000041] (k0 .enc)).inbox = [.command 0x05000041] ∧
    decode 0x05000041 = .command (.scEncu 0x0041) := by decide

theorem witness_StepRunsIssuedCommand :
    (withWords [encode (.scEncu 0x0041)] (k0 .enc)).inbox = [.command (encode (.scEncu 0x0041))] := by decide

theorem witness_HostEventsOfTheModel : decodeTableWord 32 0x11000000 = some .ksGen ∧ (k0 .enc).inbox = [] ∧
    (({ k0 .enc with inbox := [.take], responses := [⟨.ok, [0x64]⟩] } : State).inbox = .take :: [] ∧
      ({ k0 .enc with inbox := [.take], responses := [⟨.ok, [0x64]⟩] } : State).responses = [⟨.ok, [0x64]⟩]) ∧
    (({ k0 .enc with inbox := [.take] } : State).inbox = .take :: [] ∧
      ({ k0 .enc with inbox := [.take] } : State).responses = []) ∧
    ({ k0 .enc with inbox := [.reset] } : State).inbox = .reset :: [] := by decide

theorem witness_ResetClearsEveryRegister : ({ ki .dec with inbox := [.reset, .take] } : State).inbox =
    .reset :: [.take] := by decide

theorem witness_RunExecutesCommandsInOrder : (ki .enc).inbox = [] := by decide

theorem witness_InstancesShareNothing : [State.reset, withWords [0x00000000] (k0 .enc)][1]? =
      some (withWords [0x00000000] (k0 .enc)) ∧
    step (withWords [0x00000000] (k0 .enc)) = .next { k0 .enc with responses := [⟨.ok, []⟩] } := ⟨rfl, rfl⟩

theorem witness_EveryCommandReturnsOneStatus :
    (withWords [0x11000000] (k0 .enc)).inbox = .command 0x11000000 :: [] := by decide

/-- An OK command of each number of bytes, both sides of the two commands with two numbers, and a failure. -/
theorem witness_OutputBytesPerCommand :
    answer .nop State.reset = [⟨.ok, []⟩] ∧ answer (.hxEnib 0xf) State.reset = [⟨.ok, [0x66]⟩] ∧
    answer (.hxEbyt 0x4a) State.reset = [⟨.ok, [0x34, 0x61]⟩] ∧ answer .ksGen (k0 .enc) = [⟨.ok, [0x64, 0x00, 0x64]⟩] ∧
    answer (.scEncu 0x0041) (k0 .enc) = [⟨.ok, [0x36, 0x34, 0x38, 0x38]⟩] ∧
    answer (.scDech 0x0036) (k0 .dec) = [⟨.ok, []⟩] ∧
    answer (.scDech 0x0035) { k0 .dec with dpend := true, dhi := 2, wpend := true, whi := 7 } = [⟨.ok, [7, 0x41]⟩] ∧
    answer (.hxDchr 0x0034) State.reset = [⟨.ok, []⟩] ∧
    answer (.hxDchr 0x0061) { State.reset with hxpend := true, hxhi := 4 } = [⟨.ok, [0x4a]⟩] ∧
    answer .ksGen State.reset = [⟨.eNosess, []⟩] ∧
    (withWords [0x40000000] (k0 .enc)).inbox = [.command 0x40000000] := by decide

theorem witness_SessionGateRejects : isGated (Instr.ksGen).opcode = true ∧ State.reset.sess = .idle ∧
    failed.sess = .failed := by decide

theorem witness_ModeCheckFails :
    ((fresh .dec).sess = .opened ∧ requiredDirection (Instr.scEncu 0x0041).opcode = some .enc ∧
      (fresh .dec).dir ≠ .enc) ∧
    ((fresh .enc).sess = .opened ∧ requiredDirection (Instr.scDech 0x0036).opcode = some .dec ∧
      (fresh .enc).dir ≠ .dec) := by decide

theorem witness_ready : Ready (k0 .enc) ∧ Ready (k0 .dec) := ⟨⟨rfl, rfl, rfl⟩, ⟨rfl, rfl, rfl⟩⟩

theorem witness_KeyReadyCheckFails : isData (Instr.scEncu 0x0041).opcode = true ∧
    requiredDirection (Instr.scEncu 0x0041).opcode = some .enc ∧
    ((pending .enc).sess = .opened ∧ (pending .enc).dir = .enc ∧ (pending .enc).kpend = true) ∧
    ((fresh .enc).sess = .opened ∧ (fresh .enc).dir = .enc ∧ (fresh .enc).kpend = false ∧
      (fresh .enc).keycnt ≠ 16) := by decide

theorem witness_CommandsOfTheResetState : State.reset.sess = .idle ∧ isGated (Instr.scByte 0x41).opcode = true ∧
    (isGated (Instr.hxDend).opcode = false ∧ Instr.hxDend ≠ .scClose) := by decide

/-- An error of each kind of R201. -/
theorem witness_ErrorsByTheirEffect : decode 0x40000000 = .illegal .reservedOpcode ∧
    answer .scClose State.reset = [⟨.eNosess, []⟩] ∧ answer .scClose failed = [⟨.eMode, []⟩] ∧
    answer (.hxDchr 0x0067) State.reset = [⟨.eHex, []⟩] ∧
    answer .hxDend { State.reset with hxpend := true } = [⟨.eHex, []⟩] ∧
    answer (.hxDnib 0x0130) State.reset = [⟨.eHex, []⟩] ∧ answer .ksGen failed = [⟨.eFailed, []⟩] ∧
    answer .ksGen State.reset = [⟨.eNosess, []⟩] ∧ answer .ksGen (fresh .enc) = [⟨.eKeylen, []⟩] ∧
    answer .ksGen (pending .enc) = [⟨.eHex, []⟩] ∧ answer (.scEncu 0x0041) (k0 .dec) = [⟨.eMode, []⟩] := by decide

/-- `NOP` is outside every `written by` list. -/
theorem witness_RegistersWrittenOnlyByTheirCommands :
    exec .nop (k0 .enc) = .next { k0 .enc with responses := [⟨.ok, []⟩] } ∧ isGated (Instr.nop).opcode = false :=
  ⟨rfl, rfl⟩

theorem witness_SessionStateMoves :
    (after (.scOpen .enc) State.reset).sess ≠ State.reset.sess ∧ (after .scClose failed).sess ≠ failed.sess ∧
    (after .ksGen (fresh .enc)).sess ≠ (fresh .enc).sess := by decide

theorem witness_StepKeepsInvariant : BlockInv (withWords [0x01000000] State.reset) ∧
    step (withWords [0x01000000] State.reset) = .next { fresh .enc with responses := [⟨.ok, []⟩] } :=
  ⟨⟨by decide, by decide, by decide, fun _ => ⟨rfl, rfl, rfl, rfl, rfl, rfl, rfl, rfl, rfl, rfl, rfl, rfl⟩, by decide,
    by decide, fun r hr => by cases hr⟩, rfl⟩

theorem witness_KeyDifferencesStayConstant : (ki .enc).keycnt = 16 ∧
    exec (.ksFeed 0x41) (ki .enc) = .next (after (.ksFeed 0x41) (ki .enc)) ∧
    (Instr.ksFeed 0x41).opcode ≠ .scOpen ∧ Instr.ksFeed 0x41 ≠ .scClose := ⟨rfl, rfl, by decide, by decide⟩

theorem witness_SessionIgnoresCodecState : isCodec (Instr.scOpen .dec).opcode = false ∧
    SameButCodec State.reset { State.reset with hxpend := true, hxhi := 4 } ∧
    exec (.scOpen .dec) State.reset = .next { fresh .dec with responses := [⟨.ok, []⟩] } := ⟨rfl, rfl, rfl⟩

theorem witness_HxDnibMeaning : hexVal 0x0066 = some 0xf ∧ hexVal 0x0067 = none := by decide

theorem witness_HxDchrMeaning : hexVal 0x0130 = none ∧ (hexVal 0x0030 = some 0 ∧ State.reset.hxpend = false) ∧
    (hexVal 0x0046 = some 0xf ∧ ({ State.reset with hxpend := true, hxhi := 4 } : State).hxpend = true) := by decide

theorem witness_HxDendMeaning : State.reset.hxpend = false ∧
    ({ State.reset with hxpend := true } : State).hxpend = true := by decide

theorem witness_HexdecIsHexToBytes : State.reset.hxpend = false ∧
    Source.hexToBytes [0x34, 0x61] = .value [0x4a] ∧ Source.hexToBytes [0x34, 0x67] = .error .invalidHex ∧
    Source.hexToBytes [0x34] = .error .invalidHex ∧ Source.hexToBytes [] = .value [] := by decide +kernel

theorem witness_HexRoundTrip : State.reset.hxpend = false ∧ [0x34#16, 0x41#16].length % 2 = 0 ∧
    (∀ h ∈ [0x34#16, 0x41#16], (hexVal h).isSome = true) := by
  refine ⟨rfl, rfl, fun h hh => ?_⟩
  obtain rfl | rfl : h = 0x34#16 ∨ h = 0x41#16 := by simpa using hh
  · decide
  · decide

theorem witness_GenIsTheRoundRecurrence :
    gen (k0 .enc).x (k0 .enc).t (k0 .enc).c = { v := 0x74b8, c := 0x3dd6, t := 0x64be, q := 0x6400 } := by decide

/-- The states in which the session commands are turned away, fail, or load a key byte at each end of the key. -/
theorem witness_KsKeybMeaning : State.reset.sess = .idle ∧ failed.sess = .failed ∧
    ((pending .enc).sess = .opened ∧ (pending .enc).kpend = true) ∧
    ((k0 .enc).sess = .opened ∧ (k0 .enc).kpend = false ∧ (k0 .enc).keycnt = 16) ∧
    ((fresh .enc).sess = .opened ∧ (fresh .enc).kpend = false ∧ (fresh .enc).keycnt.toNat = (0 : Fin 16).val) ∧
    ({ fresh .enc with keycnt := 15 } : State).keycnt.toNat = (15 : Fin 16).val := by decide

theorem witness_data_command : State.reset.sess = .idle ∧ failed.sess = .failed ∧
    ((pending .enc).sess = .opened ∧ (pending .enc).dir = .enc ∧ (pending .enc).kpend = true) ∧
    ((pending .dec).sess = .opened ∧ (pending .dec).dir = .dec ∧ (pending .dec).kpend = true) ∧
    ((fresh .enc).sess = .opened ∧ (fresh .enc).dir = .enc ∧ (fresh .enc).kpend = false ∧ (fresh .enc).keycnt ≠ 16) ∧
    ((fresh .dec).sess = .opened ∧ (fresh .dec).dir = .dec ∧ (fresh .dec).kpend = false ∧ (fresh .dec).keycnt ≠ 16) ∧
    (k0 .enc).dir = .enc ∧ (k0 .dec).dir = .dec := by decide

theorem witness_KsGenMeaning : Ready (k0 .enc) ∧ gen (k0 .enc).x (k0 .enc).t (k0 .enc).c =
    { v := 0x74b8, c := 0x3dd6, t := 0x64be, q := 0x6400 } := ⟨⟨rfl, rfl, rfl⟩, by decide⟩

theorem witness_KsFeedMeaning : Ready (ki .enc) := ⟨rfl, rfl, rfl⟩

theorem witness_FeedXorsEveryWord : Ready (ki .enc) := ⟨rfl, rfl, rfl⟩

theorem witness_GenThenFeedIsOneByte : (Ready (ki .enc) ∧ (ki .enc).dir = .enc) ∧
    Ready (ki .dec) ∧ (ki .dec).dir = .dec :=
  ⟨⟨⟨rfl, rfl, rfl⟩, rfl⟩, ⟨rfl, rfl, rfl⟩, rfl⟩

theorem witness_KeystreamDependsOnStateAndFeedback : Ready (ki .enc) ∧
    Ready { ki .dec with hxpend := true, wpend := true } ∧
    (ki .enc).x = (ki .dec).x ∧ (ki .enc).t = (ki .dec).t ∧ (ki .enc).c = (ki .dec).c ∧
    (List.replicate 16 0x30#8).length = 16 := ⟨⟨rfl, rfl, rfl⟩, ⟨rfl, rfl, rfl⟩, rfl, rfl, rfl, rfl⟩

theorem witness_KeyLoadPacksBigEndian : (List.replicate 16 0x00#8).length = 16 ∧
    Source.hexToBytes (List.replicate 32 0x30) = .value (List.replicate 16 0x00) := by decide +kernel

theorem witness_ScCloseMeaning : State.reset.sess = .idle ∧ (failed.sess ≠ .idle ∧ failed.sess = .failed) ∧
    ((k0 .dec).sess = .opened ∧ (k0 .dec).kpend = false ∧ (k0 .dec).keycnt = 16 ∧ (k0 .dec).dpend = false) ∧
    ((pending .enc).sess = .opened ∧ (pending .enc).kpend = true) ∧
    ((fresh .enc).sess = .opened ∧ (fresh .enc).kpend = false ∧ (fresh .enc).keycnt ≠ 16) ∧
    ({ k0 .dec with dpend := true } : State).dpend = true := by decide

theorem witness_ScKeyhexMeaning : hexVal 0x0067 = none ∧ hexVal 0x0066 = some 0xf ∧
    ((fresh .enc).sess = .opened ∧ (fresh .enc).kpend = false) ∧
    ((pending .enc).sess = .opened ∧ (pending .enc).kpend = true ∧ (pending .enc).keycnt = 16) ∧
    (({ fresh .enc with kpend := true } : State).kpend = true ∧
      ({ fresh .enc with kpend := true } : State).keycnt.toNat = (0 : Fin 16).val) ∧
    ({ fresh .enc with kpend := true, keycnt := 15 } : State).keycnt.toNat = (15 : Fin 16).val := by decide

theorem witness_zero_digits (n : Nat) : ∀ h ∈ List.replicate n 0x30#16, (hexVal h).isSome = true := by
  intro h hh
  rw [List.eq_of_mem_replicate hh]
  decide

/-- Key strings on both sides of the outcomes of R163. -/
theorem witness_KeyStringLengthOutcome : (∀ h ∈ List.replicate 34 0x30#16, (hexVal h).isSome = true) ∧
    (List.replicate 33 0x30#16).length ≤ 33 ∧ 34 ≤ (List.replicate 34 0x30#16).length :=
  ⟨witness_zero_digits 34, by decide, by decide⟩

theorem witness_ScByteMeaning : (Ready (k0 .enc) ∧ (k0 .enc).dir = .enc) ∧ Ready (k0 .dec) ∧ (k0 .dec).dir = .dec :=
  ⟨⟨⟨rfl, rfl, rfl⟩, rfl⟩, ⟨rfl, rfl, rfl⟩, rfl⟩

theorem witness_ScEncuMeaning : ((fresh .dec).sess = .opened ∧ (fresh .dec).dir = .dec) ∧
    Ready (k0 .enc) ∧ (k0 .enc).dir = .enc := ⟨⟨rfl, rfl⟩, ⟨rfl, rfl, rfl⟩, rfl⟩

theorem witness_ScDechMeaning : ((fresh .enc).sess = .opened ∧ (fresh .enc).dir = .enc) ∧
    (Ready (k0 .dec) ∧ (k0 .dec).dir = .dec ∧ (k0 .dec).dpend = false ∧ (k0 .dec).wpend = false) ∧
    (Ready { k0 .dec with dpend := true, wpend := true }) ∧ hexVal 0x0130 = none ∧ hexVal 0x0036 = some 6 :=
  ⟨⟨rfl, rfl⟩, ⟨⟨rfl, rfl, rfl⟩, rfl, rfl, rfl⟩, ⟨rfl, rfl, rfl⟩, by decide, by decide⟩

theorem witness_CommandSequenceIsPc1 : (List.replicate 16 0x00#8).length = 16 ∧ (List.replicate 15 0x00#8).length < 16 ∧
    16 < (List.replicate 17 0x00#8).length := by decide

theorem witness_CommandSequenceIsEncrypt : (List.replicate 32 0x30#16).length = 32 ∧
    (∀ h ∈ List.replicate 32 0x30#16, (hexVal h).isSome = true) := ⟨rfl, witness_zero_digits 32⟩

theorem witness_CommandSequenceIsDecrypt : (List.replicate 32 0x30#16).length = 32 ∧
    (∀ h ∈ List.replicate 32 0x30#16, (hexVal h).isSome = true) ∧ (List.replicate 4 0x30#16).length % 2 = 0 ∧
    (∀ h ∈ List.replicate 4 0x30#16, (hexVal h).isSome = true) :=
  ⟨rfl, witness_zero_digits 32, rfl, witness_zero_digits 4⟩

theorem witness_SequencesFailWhenTheSourceFails :
    Source.encrypt [0x0041] [0x30] = .error .invalidHex ∧ Source.encrypt [] [] = .error .keyLength ∧
    Source.decrypt [0x36] [0x30, 0x30] = .error .invalidHex ∧ Source.decrypt [] [0x30, 0x30] = .error .keyLength ∧
    Source.encrypt [] (List.replicate 32 0x30) = .value [] := by decide +kernel

theorem witness_Pc1RoundTrip : (List.replicate 16 0x00#8).length = 16 := by decide

theorem witness_WideTextRoundTrip : (List.replicate 32 0x30#16).length = 32 ∧
    (∀ h ∈ List.replicate 32 0x30#16, (hexVal h).isSome = true) := ⟨rfl, witness_zero_digits 32⟩

end Sys2Proof.Tests
end

/-!
Proofs: the encoding of commands (30_encoding.md). The decoder and the encoder are compared field by field on the layout
`{OPC, MOD, DATA}` of R70, and every statement about legal words is read off `decode_eq_command_iff`.
-/

namespace Sys2Proof

/-! ## The fields of a word -/

/-- `MOD = w[23:16]` (R70). -/
def modBits (w : CommandWord) : Byte := w.extractLsb' 16 8

/-- The layout of R70. -/
theorem append_fields (w : CommandWord) : opcField w ++ modBits w ++ halfField w = w := by
  have hi : opcField w ++ modBits w = w.extractLsb' 16 16 :=
    BitVec.extractLsb'_append_extractLsb'_eq_extractLsb' rfl
  rw [hi]
  exact BitVec.extractLsb'_append_extractLsb' (w := 16) (len := 16)

/-- A mask that keeps the opcode acts on the other two fields one by one. -/
theorem and_mask_fields (w : CommandWord) (m : Byte) (d : Word) :
    w &&& (0xFF#8 ++ m ++ d) = opcField w ++ (modBits w &&& m) ++ (halfField w &&& d) := by
  have hopc : opcField w &&& 0xFF#8 = opcField w := BitVec.and_allOnes
  conv_lhs => rw [← append_fields w]
  rw [and_fields, hopc]

/-- Masking away the high bits leaves the low bits. -/
theorem and_lowMask {a b : Nat} (x : BitVec (a + b)) :
    x &&& (0#a ++ BitVec.allOnes b) = 0#a ++ x.extractLsb' 0 b := by
  conv_lhs => rw [← BitVec.extractLsb'_append_extractLsb' (x := x)]
  rw [BitVec.and_append, BitVec.and_zero, BitVec.and_allOnes]

/-- The direction of a word is bit 0 of its `MOD` (R72). -/
theorem modField_dirField (w : CommandWord) : (Instr.scOpen (dirField w)).modField = modBits w &&& 0x01#8 := by
  have hbit : (modBits w).getLsbD 0 = w.getLsbD 16 := by simp [modBits]
  rw [BitVec.and_one_eq_setWidth_ofBool_getLsbD, hbit, dirField]
  cases w.getLsbD 16 <;> rfl

theorem zero_append_byteField (w : CommandWord) : 0#8 ++ byteField w = halfField w &&& 0x00FF#16 := by
  have h : byteField w = (halfField w).extractLsb' 0 8 :=
    (BitVec.extractLsb'_extractLsb'_of_le (by decide)).symm
  rw [h]
  exact (and_lowMask (a := 8) (b := 8) _).symm

theorem zero_append_nibbleField (w : CommandWord) : 0#12 ++ nibbleField w = halfField w &&& 0x000F#16 := by
  have h : nibbleField w = (halfField w).extractLsb' 0 4 :=
    (BitVec.extractLsb'_extractLsb'_of_le (by decide)).symm
  rw [h]
  exact (and_lowMask (a := 12) (b := 4) _).symm

/-! ## Encoding an assembled command -/

/-- The bits of `MOD` that carry an operand of the class: `dir`, for class M (R71). -/
def OperandClass.modMask : OperandClass → Byte
  | .M => 0x01
  | .Z | .B | .H | .N => 0x00

/-- The bits of `DATA` that carry an operand of the class (R71). -/
def OperandClass.dataMask : OperandClass → Word
  | .Z | .M => 0x0000
  | .B => 0x00FF
  | .H => 0xFFFF
  | .N => 0x000F

/-- The bits that are not reserved are the opcode and the operand (R71). -/
theorem not_reservedMask (k : OperandClass) : ~~~k.reservedMask = 0xFF#8 ++ k.modMask ++ k.dataMask := by
  cases k <;> rfl

theorem modField_assemble (op : Opcode) (w : CommandWord) :
    (op.assemble w).modField = modBits w &&& op.operandClass.modMask := by
  cases op with
  | scOpen => exact modField_dirField w
  | _ => exact BitVec.and_zero.symm

theorem dataField_assemble (op : Opcode) (w : CommandWord) :
    (op.assemble w).dataField = halfField w &&& op.operandClass.dataMask := by
  cases op with
  | nop | scOpen | scClose | ksGen | hxDend => exact BitVec.and_zero.symm
  | scKeyhex | scEncu | scDech | hxDnib | hxDchr => exact BitVec.and_allOnes.symm
  | scByte | ksKeyb | ksFeed | hxEbyt => exact zero_append_byteField w
  | hxEnib => exact zero_append_nibbleField w

/-- Reading the operand of an opcode from a word of that opcode and writing it back clears the reserved bits of the
word and changes no other bit. -/
theorem encode_assemble {op : Opcode} {w : CommandWord} (h : opcField w = op.bits) :
    encode (op.assemble w) = w &&& ~~~op.operandClass.reservedMask := by
  rw [encode, assemble_opcode, modField_assemble, dataField_assemble, ← h, not_reservedMask, and_mask_fields]

/-! ## Assembling an encoded command -/

theorem dirField_encode (d : Direction) : dirField (encode (.scOpen d)) = d := by cases d <;> rfl

theorem halfField_append (a m : Byte) (d : Word) : halfField (a ++ m ++ d) = d := BitVec.extractLsb'_append_eq_right

theorem byteField_append (a m b : Byte) : byteField (a ++ m ++ (0#8 ++ b)) = b := by
  rw [byteField, BitVec.extractLsb'_append_eq_of_add_le (by decide)]
  exact BitVec.extractLsb'_append_eq_right

theorem nibbleField_append (a m : Byte) (n : Nibble) : nibbleField (a ++ m ++ (0#12 ++ n)) = n := by
  rw [nibbleField, BitVec.extractLsb'_append_eq_of_add_le (by decide)]
  exact BitVec.extractLsb'_append_eq_right

/-- The operand fields of a command's word hold the command's operand. -/
theorem assemble_encode (i : Instr) : i.opcode.assemble (encode i) = i := by
  cases i with
  | nop | scClose | ksGen | hxDend => rfl
  | scOpen d => exact congrArg _ (dirField_encode d)
  | scKeyhex h | scEncu h | scDech h | hxDnib h | hxDchr h => exact congrArg _ (halfField_append _ _ h)
  | scByte b | ksKeyb b | ksFeed b | hxEbyt b => exact congrArg _ (byteField_append _ _ b)
  | hxEnib n => exact congrArg _ (nibbleField_append _ _ n)

/-- The reserved bits of a word are 0 exactly when clearing them changes nothing. -/
theorem and_eq_zero_iff_and_not_eq_self {n : Nat} {x m : BitVec n} : x &&& m = 0 ↔ x &&& ~~~m = x := by
  constructor
  · intro h
    calc x &&& ~~~m = (x &&& m) ||| (x &&& ~~~m) := by rw [h]; exact BitVec.zero_or.symm
      _ = x &&& (m ||| ~~~m) := BitVec.and_or_distrib_left.symm
      _ = x := by rw [BitVec.or_not_self, BitVec.and_allOnes]
  · intro h
    rw [← h, BitVec.and_assoc, BitVec.not_and_self]
    exact BitVec.and_zero

/-- The reserved bits of a command's word are 0. -/
theorem encode_and_reservedMask (i : Instr) : encode i &&& i.opcode.operandClass.reservedMask = 0 := by
  have h := encode_assemble (opcField_encode i)
  rw [assemble_encode] at h
  exact and_eq_zero_iff_and_not_eq_self.2 h.symm

/-! ## The decoder -/

theorem bits_of_opcodeOf {opc : Byte} {op : Opcode} (h : opcodeOf opc = some op) : opc = op.bits := by
  unfold opcodeOf at h
  split at h <;> cases h <;> exact BitVec.eq_of_toNat_eq ‹_›

theorem opcodeOf_eq_some_iff {opc : Byte} {op : Opcode} : opcodeOf opc = some op ↔ opc = op.bits :=
  ⟨bits_of_opcodeOf, fun h => h ▸ opcodeOf_bits op⟩

theorem decode_of_reserved_opcode {w : CommandWord} (h : opcodeOf (opcField w) = none) :
    decode w = .illegal .reservedOpcode := by
  simp [decode, h]

theorem decode_of_opcode {w : CommandWord} {op : Opcode} (h : opcField w = op.bits) : decode w =
    if w &&& op.operandClass.reservedMask = 0 then .command (op.assemble w) else .illegal .reservedBit := by
  simp [decode, opcodeOf_eq_some_iff.2 h]

theorem decode_encode (i : Instr) : decode (encode i) = .command i := by
  rw [decode_of_opcode (opcField_encode i), if_pos (encode_and_reservedMask i), assemble_encode]

/-- A word that decodes to a command has an assigned opcode and clear reserved bits, and the command is assembled from
it (R76). -/
theorem fields_of_decode {w : CommandWord} {i : Instr} (h : decode w = .command i) :
    ∃ op : Opcode, opcField w = op.bits ∧ w &&& op.operandClass.reservedMask = 0 ∧ op.assemble w = i := by
  cases ho : opcodeOf (opcField w) with
  | none => rw [decode_of_reserved_opcode ho] at h; cases h
  | some op =>
    have hb := bits_of_opcodeOf ho
    rw [decode_of_opcode hb] at h
    split at h
    next hr => exact ⟨op, hb, hr, Decoded.command.inj h⟩
    next => cases h

/-- A command's one word is its encoding. -/
theorem decode_eq_command_iff {w : CommandWord} {i : Instr} : decode w = .command i ↔ w = encode i := by
  constructor
  · intro h
    obtain ⟨op, hb, hr, rfl⟩ := fields_of_decode h
    rw [encode_assemble hb, and_eq_zero_iff_and_not_eq_self.1 hr]
  · rintro rfl
    exact decode_encode i

/-! ## The round trips -/

/-- Settles O2: the word of a command has the command's opcode, clear reserved bits and the command's operand. -/
theorem decodeOfEncode : Obligations.DecodeOfEncode := decode_encode

/-- Settles O3: assembling a command from a legal word and encoding it clears reserved bits that are clear already. -/
theorem encodeOfDecode : Obligations.EncodeOfDecode := fun _ _ h => (decode_eq_command_iff.1 h).symm

/-! ## The rows of the opcode map -/

theorem append_bits_inj {a b : Nat} {x x' : BitVec a} {y y' : BitVec b} :
    x ++ y = x' ++ y' ↔ x = x' ∧ y = y' := by
  constructor
  · intro h
    have hx := congrArg (BitVec.extractLsb' b a) h
    have hy := congrArg (BitVec.extractLsb' 0 b) h
    rw [BitVec.extractLsb'_append_eq_left, BitVec.extractLsb'_append_eq_left] at hx
    rw [BitVec.extractLsb'_append_eq_right, BitVec.extractLsb'_append_eq_right] at hy
    exact ⟨hx, hy⟩
  · rintro ⟨rfl, rfl⟩
    rfl

/-- A mask of the opcode and of some lower bits checks the opcode, and that those lower bits are 0. -/
theorem and_opcodeMask_eq_iff (w : CommandWord) (m : BitVec 24) (a : Byte) :
    w &&& (0xFF#8 ++ m) = a ++ 0#24 ↔ opcField w = a ∧ w &&& (0#8 ++ m) = 0 := by
  have hw : opcField w ++ w.extractLsb' 0 24 = w := BitVec.extractLsb'_append_extractLsb' (w := 8) (len := 24)
  have hand (x : Byte) : w &&& (x ++ m) = (opcField w &&& x) ++ (w.extractLsb' 0 24 &&& m) := by
    conv_lhs => rw [← hw]
    exact BitVec.and_append
  have hopc : opcField w &&& 0xFF#8 = opcField w := BitVec.and_allOnes
  have hzero : (0 : CommandWord) = 0#8 ++ 0#24 := rfl
  rw [hand, hand, hopc, hzero, append_bits_inj, append_bits_inj]
  simp

theorem reservedMask_eq_append (k : OperandClass) : k.reservedMask = 0#8 ++ k.reservedMask.setWidth 24 := by
  cases k <;> rfl

theorem opcodeMask_or_reservedMask (k : OperandClass) :
    0xFF000000 ||| k.reservedMask = 0xFF#8 ++ k.reservedMask.setWidth 24 := by
  cases k <;> rfl

/-- The mask of a row is the opcode and the reserved bits of its class, and its match is its opcode (R75, R71). -/
theorem opcodeRows_layout : ∀ r ∈ opcodeRows, r.mask = 0xFF000000 ||| r.opcode.operandClass.reservedMask ∧
    r.matchBits = r.opcode.bits ++ 0#24 := by decide

/-- A word selects a row exactly when it has the row's opcode and its reserved bits are 0. -/
theorem and_mask_eq_matchBits_iff {r : OpcodeRow} (hr : r ∈ opcodeRows) (w : CommandWord) :
    w &&& r.mask = r.matchBits ↔ opcField w = r.opcode.bits ∧ w &&& r.opcode.operandClass.reservedMask = 0 := by
  obtain ⟨hmask, hmatch⟩ := opcodeRows_layout r hr
  rw [hmask, hmatch, opcodeMask_or_reservedMask, and_opcodeMask_eq_iff, ← reservedMask_eq_append]

/-- A word decodes to a command of an opcode exactly when it has the opcode and its reserved bits are 0. -/
theorem decodes_to_opcode_iff {op : Opcode} {w : CommandWord} : (∃ i : Instr, i.opcode = op ∧ decode w = .command i) ↔
    opcField w = op.bits ∧ w &&& op.operandClass.reservedMask = 0 := by
  constructor
  · rintro ⟨i, rfl, h⟩
    obtain rfl := decode_eq_command_iff.1 h
    exact ⟨opcField_encode i, encode_and_reservedMask i⟩
  · rintro ⟨hb, hr⟩
    exact ⟨op.assemble w, assemble_opcode op w, by rw [decode_of_opcode hb, if_pos hr]⟩

theorem exists_row (op : Opcode) : ∃ r ∈ opcodeRows, r.opcode = op := by cases op <;> decide

/-- Settles O4: selecting a row and decoding to its opcode are both the opcode and the clear reserved bits. -/
theorem wordSelectsItsTableRow : Obligations.WordSelectsItsTableRow :=
  ⟨fun _ hr w => (and_mask_eq_matchBits_iff hr w).trans decodes_to_opcode_iff.symm, opcodeRows_layout, exists_row⟩

/-! ## `NOP` -/

/-- Settles O6: the word 0 is the encoding of `NOP`, and with the opcode of `NOP` any other bit is reserved. -/
theorem nopHasOneEncoding : Obligations.NopHasOneEncoding := by
  intro w
  have hnop : decode w = .command .nop ↔ w = 0 := decode_eq_command_iff
  refine ⟨hnop, fun hopc hw => ?_⟩
  have hd := decode_of_opcode (op := .nop) hopc
  split at hd
  next => exact absurd (hnop.1 hd) hw
  next => exact hd

end Sys2Proof

namespace Sys2Proof.Machine

/-! ## A step on a word -/

theorem step_of_command {s : State} {w : CommandWord} {rest : List HostEvent} {i : Instr}
    (hs : s.inbox = .command w :: rest) (hd : decode w = .command i) : step s = exec i { s with inbox := rest } := by
  simp [step, nextEvent, hs, hd]

theorem step_of_illegal {s : State} {w : CommandWord} {rest : List HostEvent} {why : IllegalReason}
    (hs : s.inbox = .command w :: rest) (hd : decode w = .illegal why) :
    step s = .next (respond .eIllegal [] { s with inbox := rest }) := by
  simp [step, nextEvent, hs, hd, illegalWord]

/-- Settles O7: `step` takes the word off the host's events, decodes it and calls `exec`. -/
theorem stepRunsDecodedCommand : Obligations.StepRunsDecodedCommand := fun _ _ _ _ => step_of_command

/-! ## Illegal words -/

/-- The reserved opcodes of R77. -/
theorem opcodeOf_eq_none_iff (opc : Byte) : opcodeOf opc = none ↔
    (0x07 ≤ opc.toNat ∧ opc.toNat ≤ 0x0F) ∨ (0x13 ≤ opc.toNat ∧ opc.toNat ≤ 0x1F) ∨ 0x25 ≤ opc.toNat := by
  unfold opcodeOf
  split
  case h_16 => simp only [imp_false, true_iff] at *; omega
  all_goals simp only [reduceCtorEq, false_iff]; omega

/-- The illegal words of R77: a reserved opcode, or a reserved bit that is 1. -/
theorem decode_illegal {w : CommandWord} (h : opcodeOf (opcField w) = none ∨
    ∃ op, opcodeOf (opcField w) = some op ∧ w &&& op.operandClass.reservedMask ≠ 0) :
    ∃ why, decode w = .illegal why := by
  obtain hnone | ⟨op, hop, hr⟩ := h
  · exact ⟨_, decode_of_reserved_opcode hnone⟩
  · exact ⟨_, (decode_of_opcode (bits_of_opcodeOf hop)).trans (if_neg hr)⟩

/-- Settles O5: both kinds of illegal word are rejected by the decoder, and a rejected word only adds a response. -/
theorem reservedWordsAreIllegal : Obligations.ReservedWordsAreIllegal := by
  refine ⟨opcodeOf_eq_none_iff, by decide +kernel, fun s w rest hs hw => ?_⟩
  obtain ⟨why, hd⟩ := decode_illegal hw
  exact step_of_illegal hs hd

/-! ## Output bytes (R74) -/

theorem runGen_responses (s : State) : (runGen s).2.responses = s.responses := by
  rw [runGen_eq, setAccumulators_responses]

theorem cipherStep_responses (z : Byte) (s : State) : (cipherStep z s).2.responses = s.responses := by
  rw [cipherStep_eq, feed_responses, setAccumulators_responses]

theorem cipherStep_wpend (z : Byte) (s : State) : (cipherStep z s).2.wpend = s.wpend := by
  rw [cipherStep_eq, feed_wpend, setAccumulators_wpend]

/-- Between the two states the block gave one response: without bytes unless its status is OK, and then with `n`. -/
def Answers (s t : State) (n : Nat) : Prop :=
  ∃ r : Response, t.responses = s.responses ++ [r] ∧ (r.status ≠ Status.ok → r.bytes = []) ∧
    (r.status = Status.ok → r.bytes.length = n)

section

variable {s u : State} {n : Nat}

/-- A response without bytes, by whose status the command owes none. -/
theorem answers_respond_nil {st : Status} (hu : u.responses = s.responses) (hn : st = .ok → n = 0) :
    Answers s (respond st [] u) n :=
  ⟨⟨st, []⟩, by rw [respond_responses, hu], fun _ => rfl, fun hst => (hn hst).symm⟩

theorem answers_respond_ok {bytes : List Byte} (hu : u.responses = s.responses) (hn : bytes.length = n) :
    Answers s (respond .ok bytes u) n :=
  ⟨_, by rw [respond_responses, hu], fun h => absurd rfl h, fun _ => hn⟩

/-- A decrypted byte gives two bytes when it completes a code unit, and else none. -/
theorem answers_pairCodeUnit (p : Byte) (hu : u.responses = s.responses) (hw : u.wpend = s.wpend) :
    Answers s (pairCodeUnit p u) (if s.wpend then 2 else 0) := by
  obtain ⟨hp, e⟩ | ⟨hp, e⟩ := pairCodeUnit_cases p u <;> rw [e, ← hw, hp]
  · exact answers_respond_ok hu rfl
  · exact answers_respond_ok hu rfl

end

/-- The number of output bytes of a command that completes (the table of R74). -/
def outputCount (s : State) : Instr → Nat
  | .nop | .scOpen _ | .scClose | .scKeyhex _ | .ksKeyb _ | .ksFeed _ | .hxDend => 0
  | .scByte _ | .hxDnib _ | .hxEnib _ => 1
  | .hxEbyt _ => 2
  | .ksGen => 3
  | .scEncu _ => 4
  | .scDech _ => if s.dpend && s.wpend then 2 else 0
  | .hxDchr _ => if s.hxpend then 1 else 0

theorem outputCount_le (s : State) (i : Instr) : outputCount s i ≤ 4 := by
  cases i with
  | scDech | hxDchr => rw [outputCount]; split <;> omega
  | _ => simp [outputCount]

theorem answers_of_turnedAway {s t : State} {i : Instr} {n : Nat} (h : TurnedAway s t i) : Answers s t n := by
  obtain ⟨code, rfl, hcode⟩ := h
  have hbad : code ≠ .ok := by rintro rfl; simp at hcode
  exact answers_respond_nil rfl fun hok => absurd hok hbad

theorem answers_of_failsSession {s t : State} {i : Instr} {n : Nat} (h : FailsSession s t i) : Answers s t n := by
  obtain ⟨code, rfl, -, -, hcode⟩ := h
  have hbad : code ≠ .ok := by rintro rfl; simp at hcode
  exact answers_respond_nil rfl fun hok => absurd hok hbad

theorem answers_of_ownEffect {s t : State} {i : Instr} (h : OwnEffect s t i) : Answers s t (outputCount s i) := by
  cases i with
  | nop | scOpen | hxEnib | hxEbyt => subst h; exact answers_respond_ok rfl rfl
  | scClose => obtain ⟨-, rfl⟩ := h; exact answers_respond_nil rfl fun _ => rfl
  | scKeyhex => obtain ⟨-, _, -, ⟨-, rfl⟩ | ⟨-, -, rfl⟩⟩ := h <;> exact answers_respond_ok rfl rfl
  | scByte => obtain ⟨-, rfl⟩ := h; exact answers_respond_ok (cipherStep_responses _ s) rfl
  | ksFeed => obtain ⟨-, rfl⟩ := h; exact answers_respond_ok rfl rfl
  | scEncu =>
    obtain ⟨-, -, p, q, rfl, rfl, rfl⟩ := h
    exact answers_respond_ok ((cipherStep_responses _ _).trans (cipherStep_responses _ s)) rfl
  | scDech =>
    obtain ⟨-, -, v, -, ⟨hp, rfl⟩ | ⟨hp, p, rfl, rfl⟩⟩ := h
    · exact answers_respond_ok rfl (by simp [outputCount, hp])
    · rw [outputCount, hp, Bool.true_and]
      exact answers_pairCodeUnit _ (cipherStep_responses _ _) (cipherStep_wpend _ _)
  | ksKeyb => obtain ⟨-, -, -, rfl⟩ := h; exact answers_respond_ok rfl rfl
  | ksGen => obtain ⟨-, _, rfl, rfl⟩ := h; exact answers_respond_ok (runGen_responses s) rfl
  | hxDnib => obtain ⟨_, -, rfl⟩ := h; exact answers_respond_ok rfl rfl
  | hxDchr =>
    obtain ⟨-, rfl⟩ | ⟨_, -, ⟨hp, rfl⟩ | ⟨hp, rfl⟩⟩ := h
    · exact answers_respond_nil rfl nofun
    · exact answers_respond_ok rfl (by simp [outputCount, hp])
    · exact answers_respond_ok rfl (by simp [outputCount, hp])
  | hxDend =>
    obtain ⟨-, rfl⟩ | ⟨-, rfl⟩ := h
    · exact answers_respond_nil rfl nofun
    · exact answers_respond_ok rfl rfl

theorem answers_of_exec {s t : State} {i : Instr} (h : exec i s = .next t) : Answers s t (outputCount s i) := by
  obtain haway | hfails | hown := exec_cases h
  · exact answers_of_turnedAway haway
  · exact answers_of_failsSession hfails
  · exact answers_of_ownEffect hown

/-- A response to a word is as R74 allows it. -/
theorem step_response_legal {s t : State} {w : CommandWord} {rest : List HostEvent}
    (hs : s.inbox = .command w :: rest) (h : step s = .next t) :
    ∃ r : Response, t.responses = s.responses ++ [r] ∧ r.Legal := by
  cases hd : decode w with
  | illegal why =>
    rw [step_of_illegal hs hd, Host.Outcome.next.injEq] at h
    subst h
    exact ⟨_, rfl, by decide, fun _ => rfl⟩
  | command i =>
    rw [step_of_command hs hd] at h
    obtain ⟨r, ht, hbad, hok⟩ := answers_of_exec h
    refine ⟨r, ht, ?_, hbad⟩
    by_cases hst : r.status = .ok
    · exact (hok hst).trans_le (outputCount_le _ i)
    · simp [hbad hst]

/-- Settles O15: a command that is turned away or fails its session gives no bytes, its own effect gives those of the
table, and an illegal word gives none. -/
theorem outputBytesPerCommand : Obligations.OutputBytesPerCommand := by
  refine ⟨fun i s t h => ?_, fun s t w rest hs h => ?_⟩
  · have hanswers := answers_of_exec h
    cases i <;> exact hanswers
  · obtain ⟨r, ht, hlen, hbad⟩ := step_response_legal hs h
    exact ⟨r, ht, hlen, hbad⟩

end Sys2Proof.Machine

/-!
Proofs: the hex byte codec (41_hex_byte_codec.md). One equation for each case of each command of the codec, and the
encodings of its three operand classes; the statements of rules R102 to R106 put them together.
-/

namespace Sys2Proof

/-! ## The words of classes B and N -/

/-- The zero `MOD` and the zero high half of `DATA` of a class B word are one zero field (R71). -/
theorem append_zero_append_byte (a b : Byte) : a ++ 0x00#8 ++ (0#8 ++ b) = a ++ 0x0000#16 ++ b := by
  have hzero : a ++ 0x00#8 ++ 0#8 = a ++ 0x0000#16 := BitVec.append_assoc
  rw [← hzero]
  exact BitVec.append_assoc'

/-- The zero bits of `DATA` are a field of their own in a class N word (R71). -/
theorem append_zero_append_nibble (a m : Byte) (n : Nibble) : a ++ m ++ (0#12 ++ n) = a ++ m ++ 0x000#12 ++ n :=
  BitVec.append_assoc'

end Sys2Proof

namespace Sys2Proof.Machine

/-! ## The hex-digit table (R100) -/

/-- A digit has the same value over bytes and over the naturals, where its code does not lie below the base. -/
theorem setWidth_sub_eq_ofNat {base i : Byte} (h : base ≤ i) :
    (i - base).setWidth 4 = BitVec.ofNat 4 (i.toNat - base.toNat) := by
  apply BitVec.eq_of_toNat_eq
  rw [BitVec.toNat_setWidth, BitVec.toNat_sub_of_le h, BitVec.toNat_ofNat]

/-- The three ranges of R100, over the naturals. -/
theorem hexTable_eq_toNat (i : Byte) : hexTable i =
    if 0x30 ≤ i.toNat ∧ i.toNat ≤ 0x39 then some (BitVec.ofNat 4 (i.toNat - 0x30))
    else if 0x41 ≤ i.toNat ∧ i.toNat ≤ 0x46 then some (BitVec.ofNat 4 (i.toNat - 0x37))
    else if 0x61 ≤ i.toNat ∧ i.toNat ≤ 0x66 then some (BitVec.ofNat 4 (i.toNat - 0x57))
    else none := by
  have value (base first : Byte) (hbase : base ≤ first) (hi : first ≤ i) :
      some ((i - base).setWidth 4) = some (BitVec.ofNat 4 (i.toNat - base.toNat)) :=
    congrArg some (setWidth_sub_eq_ofNat (BitVec.le_trans hbase hi))
  refine if_ctx_congr Iff.rfl (fun hdigit => value 0x30 0x30 (by decide) hdigit.1) fun _ => ?_
  refine if_ctx_congr Iff.rfl (fun hupper => value 0x37 0x41 (by decide) hupper.1) fun _ => ?_
  exact if_ctx_congr Iff.rfl (fun hlower => value 0x57 0x61 (by decide) hlower.1) fun _ => rfl

theorem hexVal_of_lt {h : Word} (hlt : h.toNat < 0x100) : hexVal h = hexTable (h.setWidth 8) :=
  if_neg (Nat.not_le.2 hlt)

theorem hexVal_of_ge {h : Word} (hge : 0x100 ≤ h.toNat) : hexVal h = none := if_pos hge

/-- Settles O28: below 0x100 a code is its low byte, which indexes the table; from 0x100 on no range holds it. -/
theorem hexDigitTable : Obligations.HexDigitTable := by
  intro h
  obtain hlt | hge := Nat.lt_or_ge h.toNat 0x100
  · have hbyte : (h.setWidth 8).toNat = h.toNat := by
      rw [BitVec.toNat_setWidth]
      exact Nat.mod_eq_of_lt hlt
    rw [hexVal_of_lt hlt, hexTable_eq_toNat, hbyte]
  · rw [hexVal_of_ge hge, if_neg (by omega), if_neg (by omega), if_neg (by omega)]

/-! ## The commands, case by case (R102 to R106) -/

section

variable {s : State} {h : Word} {v : Nibble}

theorem exec_hxDnib_of_digit (hv : hexVal h = some v) :
    exec (.hxDnib h) s = .next (respond .ok [v.setWidth 8] s) := by
  simp [exec, execHxDnib, hv]

theorem exec_hxDnib_of_undefined (hv : hexVal h = none) : exec (.hxDnib h) s = .next (respond .eHex [] s) := by
  simp [exec, execHxDnib, hv]

theorem exec_hxEnib (n : Nibble) : exec (.hxEnib n) s = .next (respond .ok [hexChr n] s) := rfl

theorem exec_hxDchr_of_undefined (hv : hexVal h = none) :
    exec (.hxDchr h) s = .next (respond .eHex [] { s with hxpend := false }) := by
  simp [exec, execHxDchr, hv]

theorem exec_hxDchr_first (hv : hexVal h = some v) (hp : s.hxpend = false) :
    exec (.hxDchr h) s = .next (respond .ok [] { s with hxhi := v, hxpend := true }) := by
  simp [exec, execHxDchr, hv, hp]

theorem exec_hxDchr_second (hv : hexVal h = some v) (hp : s.hxpend = true) :
    exec (.hxDchr h) s = .next (respond .ok [joinNibbles s.hxhi v] { s with hxpend := false }) := by
  simp [exec, execHxDchr, hv, hp]

theorem exec_hxDend_even (hp : s.hxpend = false) : exec .hxDend s = .next (respond .ok [] s) := by
  simp [exec, execHxDend, hp]

theorem exec_hxDend_odd (hp : s.hxpend = true) :
    exec .hxDend s = .next (respond .eHex [] { s with hxpend := false }) := by
  simp [exec, execHxDend, hp]

theorem exec_hxEbyt (b : Byte) : exec (.hxEbyt b) s = .next (respond .ok (hexPair b) s) := rfl

end

/-! ## The meanings -/

/-- Settles O30: a digit's value is zero-extended to a byte, and any other code is rejected. -/
theorem hxDnibMeaning : Obligations.HxDnibMeaning := by
  refine fun h s => ⟨rfl, fun v hv => ?_, fun hv => exec_hxDnib_of_undefined hv⟩
  have hbyte : v.setWidth 8 = 0#4 ++ v := BitVec.setWidth_eq_append (by decide)
  rw [exec_hxDnib_of_digit hv, hbyte]
  rfl

/-- Settles O31: no check stands in front of the one lookup. -/
theorem hxEnibMeaning : Obligations.HxEnibMeaning :=
  fun n _ => ⟨append_zero_append_nibble 0x21 0x00 n, exec_hxEnib n⟩

/-- Settles O32: the cases are an undefined character, a first digit and a second one. -/
theorem hxDchrMeaning : Obligations.HxDchrMeaning :=
  fun _ _ => ⟨rfl, exec_hxDchr_of_undefined, fun _ => exec_hxDchr_first, fun _ => exec_hxDchr_second⟩

/-- Settles O33: the cases are no pending nibble and a pending one. -/
theorem hxDendMeaning : Obligations.HxDendMeaning := fun _ => ⟨rfl, exec_hxDend_even, exec_hxDend_odd⟩

/-- Settles O34: no check stands in front of the two lookups. -/
theorem hxEbytMeaning : Obligations.HxEbytMeaning := fun b _ => ⟨append_zero_append_byte 0x24 b, exec_hxEbyt b⟩

end Sys2Proof.Machine

/-!
Proofs: the keystream engine (42_keystream_engine.md). What a gated command does in each state of the session and of the
key is said once, for every command with these checks; the round is compared with its recurrence one assignment at a
time.
-/

namespace Sys2Proof.Machine

/-! ## The checks of a gated command (R205, R206) -/

section

variable {i : Instr} {s : State} {body : State → State}

theorem rejects_of_idle (hi : exec i s = .next (gated body s)) (hs : s.sess = .idle) : Rejects i s .eNosess :=
  hi.trans (congrArg _ (gated_idle hs))

theorem rejects_of_failed (hi : exec i s = .next (gated body s)) (hs : s.sess = .failed) : Rejects i s .eFailed :=
  hi.trans (congrArg _ (gated_failed hs))

theorem exec_of_opened (hi : exec i s = .next (gated body s)) (hs : s.sess = .opened) : exec i s = .next (body s) :=
  hi.trans (congrArg _ (gated_opened hs))

theorem fails_of_pending (hi : exec i s = .next (gated (withKey body) s)) (hs : s.sess = .opened)
    (hp : s.kpend = true) : Fails i s .eHex :=
  (exec_of_opened hi hs).trans (congrArg _ (withKey_pending hp))

theorem fails_of_short (hi : exec i s = .next (gated (withKey body) s)) (hs : s.sess = .opened)
    (hp : s.kpend = false) (hk : s.keycnt ≠ 16) : Fails i s .eKeylen :=
  (exec_of_opened hi hs).trans (congrArg _ (withKey_short hp hk))

theorem exec_of_ready (hi : exec i s = .next (gated (withKey body) s)) (hr : Ready s) :
    exec i s = .next (body s) := by
  obtain ⟨hs, hp, hk⟩ := hr
  exact (exec_of_opened hi hs).trans (congrArg _ (withKey_ready hp hk))

end

/-! ## The rounds (R131) -/

theorem narrow_toNat (n : Nat) : (narrow n).toNat = n % 2 ^ 16 := BitVec.toNat_ofNat n 16

/-- The assignments of one round over the naturals: `v` and `c1` are the first values of `V` and `c`. -/
theorem round_toNat (x : Vector Word 8) (r : Rounds) (y : Fin 8) : ∃ v c1, v = r.v.toNat ^^^ x[y].toNat ∧
    c1 = ((r.c.toNat + y.val) * 20021 + r.t.toNat) % 2 ^ 16 ∧
    (round x r y).t.toNat = v * 346 % 2 ^ 16 ∧
    (round x r y).c.toNat = (c1 + (round x r y).t.toNat) % 2 ^ 16 ∧
    (round x r y).v.toNat = (v * 20021 + 1) % 2 ^ 16 ∧
    (round x r y).q.toNat = r.q.toNat ^^^ (round x r y).v.toNat ^^^ (round x r y).c.toNat := by
  refine ⟨_, _, rfl, rfl, ?_⟩
  simp only [round, narrow_toNat, BitVec.toNat_xor, Config.kmul, Config.kt, Config.kinc, and_self]

/-- The values before round `n`. -/
def roundsBefore (x : Vector Word 8) (t c : Word) (n : Nat) : Rounds :=
  (roundIndices.take n).foldl (round x) { v := 0, c := c, t := t, q := 0 }

theorem roundsBefore_succ (x : Vector Word 8) (t c : Word) (y : Fin 8) :
    roundsBefore x t c (y + 1) = round x (roundsBefore x t c y) y := by
  have hy : roundIndices[y.val]? = some y := by revert y; decide
  rw [roundsBefore, List.take_add_one, hy, List.foldl_append]
  rfl

theorem gen_eq_roundsBefore (x : Vector Word 8) (t c : Word) : gen x t c = roundsBefore x t c 8 := rfl

/-! ## The mask (R131) -/

theorem mask_toNat (q : Word) : (mask q).toNat = (q.toNat ^^^ (q.toNat >>> 8)) &&& 255 := by
  rw [mask, BitVec.toNat_setWidth, BitVec.toNat_and, BitVec.toNat_xor, BitVec.toNat_ushiftRight]
  exact Nat.mod_eq_of_lt (Nat.and_lt_two_pow (n := 8) _ (by decide))

/-- Settles O38: the recurrence runs through the values before each round, and every round keeps to it. -/
theorem genIsTheRoundRecurrence : Obligations.GenIsTheRoundRecurrence := by
  refine ⟨fun x t c => ?_, ?_, fun q => ⟨mask_toNat q, mask_eq q⟩⟩
  · refine ⟨fun n => (roundsBefore x t c n).v.toNat, fun n => (roundsBefore x t c n).c.toNat,
      fun n => (roundsBefore x t c n).t.toNat, fun n => (roundsBefore x t c n).q.toNat,
      rfl, rfl, rfl, rfl, fun y => ?_, ?_⟩
    · have hround := round_toNat x (roundsBefore x t c y) y
      rwa [← roundsBefore_succ] at hround
    · rw [gen_eq_roundsBefore]
      exact ⟨rfl, rfl, rfl⟩
  · rintro s _ rfl
    exact runGen_eq s

/-! ## `KS_KEYB` (R133) -/

section

variable {b : Byte} {s : State}

theorem exec_ksKeyb_of_opened (hs : s.sess = .opened) : exec (.ksKeyb b) s = .next (
    if s.kpend then failSession .eHex s
    else if s.keycnt = 16 then failSession .eKeylen s
    else respond .ok [] (keyWrite b s)) :=
  (exec_of_opened rfl hs).trans rfl

theorem ksKeyb_fails_of_pending (hs : s.sess = .opened) (hp : s.kpend = true) : Fails (.ksKeyb b) s .eHex := by
  rw [Fails, exec_ksKeyb_of_opened hs, if_pos hp]
  rfl

theorem ksKeyb_fails_of_full (hs : s.sess = .opened) (hp : s.kpend = false) (hk : s.keycnt = 16) :
    Fails (.ksKeyb b) s .eKeylen := by
  rw [Fails, exec_ksKeyb_of_opened hs, if_neg (ne_true_of_eq_false hp), if_pos hk]
  rfl

theorem exec_ksKeyb_of_room (hs : s.sess = .opened) (hp : s.kpend = false) (hk : s.keycnt ≠ 16) :
    exec (.ksKeyb b) s = .next (respond .ok [] (keyWrite b s)) := by
  rw [exec_ksKeyb_of_opened hs, if_neg (ne_true_of_eq_false hp), if_neg hk]

end

theorem keycnt_ne_of_position {n : BitVec 5} {k : Fin 16} (h : n.toNat = k.val) : n ≠ 16 := by
  rintro rfl
  exact k.isLt.ne' h

/-- Settles O39: below 16 bytes the command is `KeyWrite`, which puts the byte in its place and leaves the others. -/
theorem ksKeybMeaning : Obligations.KsKeybMeaning := by
  refine fun b s => ⟨append_zero_append_byte 0x10 b, rejects_of_idle rfl, rejects_of_failed rfl,
    ksKeyb_fails_of_pending, ksKeyb_fails_of_full, fun hs hp k hk => ?_⟩
  exact ⟨(keyWrite b s).x, exec_ksKeyb_of_room hs hp (keycnt_ne_of_position hk), keyWrite_at b s k hk,
    fun j => keyWrite_other b s k j hk⟩

/-! ## `KS_GEN` and `KS_FEED` (R134, R135) -/

theorem exec_ksGen {s : State} (hr : Ready s) : exec .ksGen s =
    .next (respond .ok [highByte (runGen s).1, lowByte (runGen s).1, mask (runGen s).1] (runGen s).2) :=
  (exec_of_ready rfl hr).trans rfl

theorem exec_ksFeed {b : Byte} {s : State} (hr : Ready s) : exec (.ksFeed b) s = .next (respond .ok [] (feed b s)) :=
  (exec_of_ready rfl hr).trans rfl

/-- Settles O40: with the key ready the command is `Gen`, and its third byte is the mask. -/
theorem ksGenMeaning : Obligations.KsGenMeaning := by
  refine fun s => ⟨rfl, rejects_of_idle rfl, rejects_of_failed rfl, fails_of_pending rfl, fails_of_short rfl, ?_⟩
  rintro hr _ rfl
  rw [exec_ksGen hr, runGen_eq, mask_eq]
  rfl

/-- Settles O41: with the key ready the command is `Feed`, which XORs every word with the byte in both halves. -/
theorem ksFeedMeaning : Obligations.KsFeedMeaning := by
  refine fun b s => ⟨append_zero_append_byte 0x12 b, rejects_of_idle rfl, rejects_of_failed rfl,
    fails_of_pending rfl, fails_of_short rfl, fun hr => ?_⟩
  rw [exec_ksFeed hr, feed, feedArray_eq]
  rfl

end Sys2Proof.Machine

/-!
Proofs: the stream-cipher executor (43_stream_cipher_executor.md). The mode check and the step of R160 are said once for
the commands that share them; then come one equation for each case of each command and the meanings put together from
them.
-/

namespace Sys2Proof.Machine

/-! ## The mode check of a gated command (R207) -/

section

variable {i : Instr} {s : State} {d : Direction} {body : State → State}

theorem fails_of_mode (hi : exec i s = .next (gated (inMode d body) s)) (hs : s.sess = .opened) (hd : s.dir ≠ d) :
    Fails i s .eMode :=
  (exec_of_opened hi hs).trans (congrArg _ (inMode_other hd))

/-- In the direction it requires, a command with the mode check is the gated command without it. -/
theorem exec_of_mode (hi : exec i s = .next (gated (inMode d body) s)) (hd : s.dir = d) :
    exec i s = .next (gated body s) := by
  have hbody : inMode d body s = body s := inMode_same hd
  rw [hi, gated, gated, hbody]

end

/-! ## The step on the registers (R160) -/

section

variable {z : Byte} {s : State}

/-- Stated for any `T` and `c`, so that comparing the two records does not run the rounds. -/
theorem feed_setAccumulators (f : Byte) (t c : Word) (s : State) :
    feed f (setAccumulators t c s) = { s with x := broadcastXor f s.x, t := t, c := c } := by
  rw [feed, feedArray_eq]
  rfl

/-- The registers after a step that feeds back `f`. -/
theorem cipherStep_of_feedback {f : Byte}
    (hf : Source.plaintextByte s.dir z (z ^^^ maskOf (gen s.x s.t s.c).q) = f) :
    cipherStep z s = (z ^^^ maskOf (gen s.x s.t s.c).q,
      { s with x := broadcastXor f s.x, t := (gen s.x s.t s.c).t, c := (gen s.x s.t s.c).c }) := by
  rw [cipherStep_eq, mask_eq, hf, feed_setAccumulators]

theorem cipherStep_of_enc (hd : s.dir = .enc) : cipherStep z s = (z ^^^ maskOf (gen s.x s.t s.c).q,
    { s with x := broadcastXor z s.x, t := (gen s.x s.t s.c).t, c := (gen s.x s.t s.c).c }) :=
  cipherStep_of_feedback (by rw [hd, Source.plaintextByte])

theorem cipherStep_of_dec (hd : s.dir = .dec) : cipherStep z s = (z ^^^ maskOf (gen s.x s.t s.c).q,
    { s with
      x := broadcastXor (z ^^^ maskOf (gen s.x s.t s.c).q) s.x
      t := (gen s.x s.t s.c).t, c := (gen s.x s.t s.c).c }) :=
  cipherStep_of_feedback (by rw [hd, Source.plaintextByte])

end

/-! ## `SC_CLOSE` (R162) -/

section

variable {s : State}

theorem exec_scClose_of_idle (hs : s.sess = .idle) : exec .scClose s = .next (respond .eNosess [] s) := if_pos hs

theorem exec_scClose_of_session (hs : s.sess ≠ .idle) :
    exec .scClose s = .next (respond (closeStatus s) [] { clearSession s with sess := .idle }) := if_neg hs

theorem closeStatus_of_failed (hs : s.sess = .failed) : closeStatus s = s.err := by rw [closeStatus, hs]

theorem closeStatus_of_opened (hs : s.sess = .opened) : closeStatus s =
    if s.kpend then .eHex else if s.keycnt ≠ 16 then .eKeylen else if s.dpend then .eHex else .ok := by
  rw [closeStatus, hs]
  rfl

end

/-- Settles O48: the status is `closeStatus`, whose chain of checks is read in their order. -/
theorem scCloseMeaning : Obligations.ScCloseMeaning := by
  refine fun s => ⟨rfl, exec_scClose_of_idle, fun hs => ⟨closeStatus s, exec_scClose_of_session hs,
    closeStatus_of_failed, fun ho hp => ?_, fun ho hp hk => ?_, fun ho hp hk hd => ?_, fun ho hp hk hd => ?_⟩⟩
  · rw [closeStatus_of_opened ho, if_pos hp]
  · rw [closeStatus_of_opened ho, if_neg (ne_true_of_eq_false hp), if_pos hk]
  · rw [closeStatus_of_opened ho, if_neg (ne_true_of_eq_false hp), if_neg (not_not_intro hk), if_pos hd]
  · rw [closeStatus_of_opened ho, if_neg (ne_true_of_eq_false hp), if_neg (not_not_intro hk),
      if_neg (ne_true_of_eq_false hd)]

/-! ## `SC_KEYHEX` (R163) -/

section

variable {h : Word} {v : Nibble} {s : State}

theorem scKeyhex_fails_of_undefined (hs : s.sess = .opened) (hv : hexVal h = none) : Fails (.scKeyhex h) s .eHex :=
  (exec_of_opened rfl hs).trans (congrArg _ (withDigit_none hv))

theorem exec_scKeyhex_of_digit (hs : s.sess = .opened) (hv : hexVal h = some v) : exec (.scKeyhex h) s = .next (
    if s.kpend then
      if s.keycnt = 16 then failSession .eKeylen s
      else respond .ok [] { keyWrite (joinNibbles s.khi v) s with kpend := false }
    else respond .ok [] { s with khi := v, kpend := true }) :=
  (exec_of_opened rfl hs).trans (congrArg _ (withDigit_some hv))

theorem exec_scKeyhex_first (hs : s.sess = .opened) (hv : hexVal h = some v) (hp : s.kpend = false) :
    exec (.scKeyhex h) s = .next (respond .ok [] { s with khi := v, kpend := true }) := by
  rw [exec_scKeyhex_of_digit hs hv, if_neg (ne_true_of_eq_false hp)]

theorem scKeyhex_fails_of_full (hs : s.sess = .opened) (hv : hexVal h = some v) (hp : s.kpend = true)
    (hk : s.keycnt = 16) : Fails (.scKeyhex h) s .eKeylen := by
  rw [Fails, exec_scKeyhex_of_digit hs hv, if_pos hp, if_pos hk]
  rfl

theorem exec_scKeyhex_second (hs : s.sess = .opened) (hv : hexVal h = some v) (hp : s.kpend = true)
    (hk : s.keycnt ≠ 16) : exec (.scKeyhex h) s =
      .next (respond .ok [] { keyWrite (joinNibbles s.khi v) s with kpend := false }) := by
  rw [exec_scKeyhex_of_digit hs hv, if_pos hp, if_neg hk]

end

/-- Settles O49: the second digit of a pair is `KeyWrite` of the byte it completes, as for a raw key byte. -/
theorem scKeyhexMeaning : Obligations.ScKeyhexMeaning := by
  refine fun h s => ⟨rfl, rejects_of_idle rfl, rejects_of_failed rfl, scKeyhex_fails_of_undefined,
    fun hs _ => exec_scKeyhex_first hs, fun hs _ => scKeyhex_fails_of_full hs, fun hs v hv hp k hk => ?_⟩
  exact ⟨(keyWrite (s.khi ++ v) s).x, exec_scKeyhex_second hs hv hp (keycnt_ne_of_position hk),
    keyWrite_at _ s k hk, fun j => keyWrite_other _ s k j hk⟩

/-! ## `SC_BYTE` (R164) -/

theorem exec_scByte {b : Byte} {s : State} (hr : Ready s) :
    exec (.scByte b) s = .next (respond .ok [(cipherStep b s).1] (cipherStep b s).2) :=
  (exec_of_ready rfl hr).trans rfl

/-- Settles O51: with the key ready the command is one step, and the direction says which byte is fed back. -/
theorem scByteMeaning : Obligations.ScByteMeaning := by
  refine fun b s => ⟨append_zero_append_byte 0x04 b, rejects_of_idle rfl, rejects_of_failed rfl,
    fails_of_pending rfl, fails_of_short rfl, ?_, ?_⟩
  · rintro hr hd _ rfl
    rw [exec_scByte hr, cipherStep_of_enc hd]
    rfl
  · rintro hr hd _ rfl
    rw [exec_scByte hr, cipherStep_of_dec hd]
    rfl

/-! ## `SC_ENCU` (R165) -/

theorem exec_scEncu {h : Word} {s s0 s1 : State} {o0 o1 : Byte} (hr : Ready s) (hd : s.dir = .enc)
    (h0 : cipherStep (highByte h) s = (o0, s0)) (h1 : cipherStep (lowByte h) s0 = (o1, s1)) :
    exec (.scEncu h) s = .next (respond .ok (hexPair o0 ++ hexPair o1) s1) := by
  rw [exec_of_ready (exec_of_mode rfl hd) hr, h0]
  simp only [h1, complete_eq]

/-- Settles O52: two encrypting steps, the second from the registers that the first leaves. -/
theorem scEncuMeaning : Obligations.ScEncuMeaning := by
  refine fun h s => ⟨rfl, rejects_of_idle rfl, rejects_of_failed rfl, fun hs hd => fails_of_mode rfl hs (by simp [hd]),
    fun hs hd => fails_of_pending (exec_of_mode rfl hd) hs, fun hs hd => fails_of_short (exec_of_mode rfl hd) hs, ?_⟩
  rintro hr hd _ _ _ _ _ _ rfl rfl rfl rfl rfl rfl
  exact exec_scEncu hr hd (cipherStep_of_enc hd) (cipherStep_of_enc hd)

/-! ## `SC_DECH` (R166) -/

section

variable {h : Word} {v : Nibble} {s : State}

theorem scDech_fails_of_undefined (hr : Ready s) (hd : s.dir = .dec) (hv : hexVal h = none) :
    Fails (.scDech h) s .eHex :=
  (exec_of_ready (exec_of_mode rfl hd) hr).trans (congrArg _ (withDigit_none hv))

theorem exec_scDech_of_digit (hr : Ready s) (hd : s.dir = .dec) (hv : hexVal h = some v) :
    exec (.scDech h) s = .next (
      if s.dpend then
        pairCodeUnit (cipherStep (joinNibbles s.dhi v) { s with dpend := false }).1
          (cipherStep (joinNibbles s.dhi v) { s with dpend := false }).2
      else respond .ok [] { s with dhi := v, dpend := true }) :=
  (exec_of_ready (exec_of_mode rfl hd) hr).trans (congrArg _ (withDigit_some hv))

theorem exec_scDech_first (hr : Ready s) (hd : s.dir = .dec) (hv : hexVal h = some v) (hp : s.dpend = false) :
    exec (.scDech h) s = .next (respond .ok [] { s with dhi := v, dpend := true }) := by
  rw [exec_scDech_of_digit hr hd hv, if_neg (ne_true_of_eq_false hp)]

theorem exec_scDech_second {s' : State} {p : Byte} (hr : Ready s) (hd : s.dir = .dec) (hv : hexVal h = some v)
    (hp : s.dpend = true) (hstep : cipherStep (joinNibbles s.dhi v) { s with dpend := false } = (p, s')) :
    exec (.scDech h) s = .next (pairCodeUnit p s') := by
  rw [exec_scDech_of_digit hr hd hv, if_pos hp, hstep]

theorem pairCodeUnit_first {p : Byte} (hw : s.wpend = false) :
    pairCodeUnit p s = respond .ok [] { s with whi := p, wpend := true } := if_neg (ne_true_of_eq_false hw)

theorem pairCodeUnit_second {p : Byte} (hw : s.wpend = true) :
    pairCodeUnit p s = respond .ok [s.whi, p] { s with wpend := false } := if_pos hw

end

/-- Settles O53: the second digit of a pair is one decrypting step, whose byte takes its place in the code unit. -/
theorem scDechMeaning : Obligations.ScDechMeaning := by
  refine fun h s => ⟨rfl, rejects_of_idle rfl, rejects_of_failed rfl, fun hs hd => fails_of_mode rfl hs (by simp [hd]),
    fun hs hd => fails_of_pending (exec_of_mode rfl hd) hs, fun hs hd => fails_of_short (exec_of_mode rfl hd) hs,
    scDech_fails_of_undefined, fun hr hd _ => exec_scDech_first hr hd, ?_⟩
  rintro hr hd v hv hp _ _ rfl rfl
  have hexec := exec_scDech_second hr hd hv hp (cipherStep_of_dec hd)
  exact ⟨fun hw => hexec.trans (congrArg _ (pairCodeUnit_first hw)),
    fun hw => hexec.trans (congrArg _ (pairCodeUnit_second hw))⟩

/-! ## `NOP` and `SC_OPEN` (R167, R161) -/

theorem exec_nop (s : State) : exec .nop s = .next (respond .ok [] s) := rfl

/-- Settles O46: no check stands in front of the response. -/
theorem nopMeaning : Obligations.NopMeaning := fun s => ⟨rfl, exec_nop s⟩

theorem exec_scOpen (d : Direction) (s : State) :
    exec (.scOpen d) s = .next (respond .ok [] { clearSession s with dir := d, sess := .opened }) := rfl

/-- Settles O47: no check stands in front of the clearing, and the direction is the one operand bit. -/
theorem scOpenMeaning : Obligations.ScOpenMeaning := by
  refine fun d s => ⟨?_, exec_scOpen d s⟩
  cases d <;> rfl

end Sys2Proof.Machine

/-!
Proofs: errors and status codes (60_exceptions.md). Which check stands in front of which command is said once for each
group of commands, and so are the ways in which a command's own effect can end; the rules on gate, mode, key, errors and
`SESS` put them together.
-/

namespace Sys2Proof.Machine

/-! ## The checks in front of each group of commands (R205 to R207) -/

section

variable {i : Instr} {s : State}

theorem exec_eq_gated (hi : isGated i.opcode = true) : ∃ body, exec i s = .next (gated body s) := by
  cases i with
  | nop | scOpen | scClose | hxDnib | hxEnib | hxDchr | hxDend | hxEbyt => cases hi
  | scKeyhex | scByte | scEncu | scDech | ksKeyb | ksGen | ksFeed => exact ⟨_, rfl⟩

theorem exec_eq_gated_inMode {d : Direction} (hi : requiredDirection i.opcode = some d) :
    ∃ body, exec i s = .next (gated (inMode d body) s) := by
  cases i with
  | scEncu | scDech => cases hi; exact ⟨_, rfl⟩
  | nop | scOpen | scClose | scKeyhex | scByte | ksKeyb | ksGen | ksFeed | hxDnib | hxEnib | hxDchr | hxDend | hxEbyt =>
    cases hi

/-- Past the mode check, where a data command has one, the key-ready check comes next. -/
theorem exec_eq_gated_withKey (hi : isData i.opcode = true)
    (hd : ∀ d, requiredDirection i.opcode = some d → s.dir = d) : ∃ body, exec i s = .next (gated (withKey body) s) := by
  cases i with
  | scByte | ksGen | ksFeed => exact ⟨_, rfl⟩
  | scEncu | scDech => exact ⟨_, exec_of_mode rfl (hd _ rfl)⟩
  | nop | scOpen | scClose | scKeyhex | ksKeyb | hxDnib | hxEnib | hxDchr | hxDend | hxEbyt => cases hi

theorem gated_rejects_of_idle (hi : isGated i.opcode = true) (hs : s.sess = .idle) : Rejects i s .eNosess := by
  obtain ⟨body, hbody⟩ := exec_eq_gated (s := s) hi
  exact rejects_of_idle hbody hs

theorem gated_rejects_of_failed (hi : isGated i.opcode = true) (hs : s.sess = .failed) : Rejects i s .eFailed := by
  obtain ⟨body, hbody⟩ := exec_eq_gated (s := s) hi
  exact rejects_of_failed hbody hs

end

/-- Settles O17: a gated command is the gate in front of a body, and the body does not run. -/
theorem sessionGateRejects : Obligations.SessionGateRejects :=
  fun _ _ hi => ⟨gated_rejects_of_idle hi, gated_rejects_of_failed hi⟩

/-- Settles O19: past its mode check a data command is the gate and the key-ready check in front of a body. -/
theorem keyReadyCheckFails : Obligations.KeyReadyCheckFails := by
  intro i s hi hs hd
  obtain ⟨body, hbody⟩ := exec_eq_gated_withKey hi hd
  exact ⟨fails_of_pending hbody hs, fails_of_short hbody hs⟩

/-! ## How a command's own effect ends -/

/-- The second state has the session state, the host's events and the responses of the first. -/
def KeepsSession (s u : State) : Prop := u.sess = s.sess ∧ u.inbox = s.inbox ∧ u.responses = s.responses

theorem KeepsSession.refl (s : State) : KeepsSession s s := ⟨rfl, rfl, rfl⟩

theorem KeepsSession.trans {s u v : State} (hu : KeepsSession s u) (hv : KeepsSession u v) : KeepsSession s v := by
  obtain ⟨hsess, hinbox, hresponses⟩ := hu
  obtain ⟨hsess', hinbox', hresponses'⟩ := hv
  exact ⟨hsess'.trans hsess, hinbox'.trans hinbox, hresponses'.trans hresponses⟩

theorem keepsSession_runGen (s : State) : KeepsSession s (runGen s).2 := ⟨rfl, rfl, rfl⟩

theorem keepsSession_cipherStep (z : Byte) (s : State) : KeepsSession s (cipherStep z s).2 := by
  rw [cipherStep_eq]
  exact ⟨rfl, rfl, rfl⟩

/-- From the first state to the second the block gave one OK response and kept the session state. -/
def Completes (s t : State) : Prop := ∃ u bytes, KeepsSession s u ∧ t = respond .ok bytes u

section

variable {s u t : State} {bytes : List Byte}

theorem completes_respond (hu : KeepsSession s u) : Completes s (respond .ok bytes u) := ⟨u, bytes, hu, rfl⟩

theorem completes_pairCodeUnit (p : Byte) (hu : KeepsSession s u) : Completes s (pairCodeUnit p u) := by
  obtain ⟨-, e⟩ | ⟨-, e⟩ := pairCodeUnit_cases p u <;> rw [e]
  · exact completes_respond hu
  · exact completes_respond hu

theorem Completes.sess (h : Completes s t) : t.sess = s.sess := by
  obtain ⟨u, bytes, ⟨hsess, -, -⟩, rfl⟩ := h
  exact hsess

theorem Completes.inbox (h : Completes s t) : t.inbox = s.inbox := by
  obtain ⟨u, bytes, ⟨-, hinbox, -⟩, rfl⟩ := h
  exact hinbox

theorem Completes.responses (h : Completes s t) : ∃ bytes, t.responses = s.responses ++ [⟨.ok, bytes⟩] := by
  obtain ⟨u, bytes, ⟨-, -, hresponses⟩, rfl⟩ := h
  exact ⟨bytes, by rw [respond_responses, hresponses]⟩

end

/-- The error that is local to the codec: only `HXPEND` is cleared (R201). -/
def CodecError (s t : State) (op : Opcode) : Prop :=
  (op = .hxDchr ∨ op = .hxDend) ∧ t = respond .eHex [] { s with hxpend := false }

/-- All the ways in which a command's own effect ends. -/
theorem ownEffect_cases {s t : State} {i : Instr} (h : OwnEffect s t i) :
    Completes s t ∨ CodecError s t i.opcode ∨
    (∃ d, i = .scOpen d ∧ t = respond .ok [] { clearSession s with dir := d, sess := .opened }) ∨
    (i = .scClose ∧ s.sess ≠ .idle ∧ t = respond (closeStatus s) [] { clearSession s with sess := .idle }) := by
  have hs := KeepsSession.refl s
  cases i with
  | nop | hxEnib | hxEbyt => subst h; exact .inl (completes_respond hs)
  | scOpen d => exact .inr (.inr (.inl ⟨d, rfl, h⟩))
  | scClose => exact .inr (.inr (.inr ⟨rfl, h⟩))
  | scKeyhex => obtain ⟨-, _, -, ⟨-, rfl⟩ | ⟨-, -, rfl⟩⟩ := h <;> exact .inl (completes_respond hs)
  | scByte => obtain ⟨-, rfl⟩ := h; exact .inl (completes_respond (keepsSession_cipherStep _ s))
  | scEncu =>
    obtain ⟨-, -, p, q, rfl, rfl, rfl⟩ := h
    exact .inl (completes_respond ((keepsSession_cipherStep _ s).trans (keepsSession_cipherStep _ _)))
  | scDech =>
    obtain ⟨-, -, v, -, ⟨-, rfl⟩ | ⟨-, p, rfl, rfl⟩⟩ := h
    · exact .inl (completes_respond hs)
    · exact .inl (completes_pairCodeUnit _ (keepsSession_cipherStep _ { s with dpend := false }))
  | ksKeyb => obtain ⟨-, -, -, rfl⟩ := h; exact .inl (completes_respond hs)
  | ksGen => obtain ⟨-, _, rfl, rfl⟩ := h; exact .inl (completes_respond (keepsSession_runGen s))
  | ksFeed => obtain ⟨-, rfl⟩ := h; exact .inl (completes_respond hs)
  | hxDnib => obtain ⟨_, -, rfl⟩ := h; exact .inl (completes_respond hs)
  | hxDchr =>
    obtain ⟨-, rfl⟩ | ⟨_, -, ⟨-, rfl⟩ | ⟨-, rfl⟩⟩ := h
    · exact .inr (.inl ⟨.inl rfl, rfl⟩)
    · exact .inl (completes_respond hs)
    · exact .inl (completes_respond hs)
  | hxDend =>
    obtain ⟨-, rfl⟩ | ⟨-, rfl⟩ := h
    · exact .inr (.inl ⟨.inr rfl, rfl⟩)
    · exact .inl (completes_respond hs)

/-- Settles O18: the mode check stands in front of the key-ready check, and the commands without it run their bodies in
both directions. -/
theorem modeCheckFails : Obligations.ModeCheckFails := by
  refine ⟨fun i s d hs hi hd => ?_, fun b s hr i hi => ?_⟩
  · obtain ⟨body, hbody⟩ := exec_eq_gated_inMode (s := s) hi
    exact fails_of_mode hbody hs hd
  · obtain ⟨t, ht, hc⟩ : ∃ t, exec i s = .next t ∧ Completes s t := by
      simp only [List.mem_cons, List.not_mem_nil, or_false] at hi
      obtain rfl | rfl | rfl := hi
      · exact ⟨_, exec_scByte hr, completes_respond (keepsSession_cipherStep b s)⟩
      · exact ⟨_, exec_ksGen hr, completes_respond (keepsSession_runGen s)⟩
      · exact ⟨_, exec_ksFeed hr, completes_respond (KeepsSession.refl s)⟩
    obtain ⟨bytes, hbytes⟩ := hc.responses
    exact ⟨t, bytes, ht, hc.sess.trans hr.1, hbytes⟩

/-! ## One status for every command (R200) -/

theorem inbox_of_exec {i : Instr} {s t : State} (h : exec i s = .next t) : t.inbox = s.inbox := by
  obtain ⟨code, rfl, -⟩ | ⟨code, rfl, -⟩ | hown := exec_cases h
  · rfl
  · rfl
  · obtain hc | ⟨-, rfl⟩ | ⟨d, -, rfl⟩ | ⟨-, -, rfl⟩ := ownEffect_cases hown
    · exact hc.inbox
    · rfl
    · rfl
    · rfl

theorem Status.code_lt (st : Status) : st.code.toNat < 0x07 := by cases st <;> decide

theorem exec_returns_one_status (i : Instr) (s : State) : ∃ (t : State) (r : Response), exec i s = .next t ∧
    t.responses = s.responses ++ [r] ∧ t.inbox = s.inbox ∧ r.status.code.toNat < 0x07 := by
  obtain ⟨t, ht⟩ := exec_answers i s
  obtain ⟨r, hr, -, -⟩ := answers_of_exec ht
  exact ⟨t, r, ht, hr, inbox_of_exec ht, r.status.code_lt⟩

/-- Settles O14: the response of a word is that of the command it decodes to, or `E_ILLEGAL`. -/
theorem everyCommandReturnsOneStatus : Obligations.EveryCommandReturnsOneStatus := by
  refine ⟨⟨rfl, rfl, rfl, rfl, rfl, rfl, rfl⟩, exec_returns_one_status, fun w s rest hs => ?_⟩
  cases hd : decode w with
  | command i =>
    rw [step_of_command hs hd]
    exact exec_returns_one_status i { s with inbox := rest }
  | illegal why => exact ⟨_, _, step_of_illegal hs hd, rfl, rfl, Status.code_lt _⟩

/-! ## Errors by their effect (R201) -/

/-- The two kinds of error of a gated command: a rejection or a failure of the session. -/
def GatedError (s t : State) (code : Status) : Prop :=
  ((code = .eNosess ∨ code = .eFailed) ∧ t = respond code [] s) ∨
  ((code = .eKeylen ∨ code = .eHex ∨ code = .eMode) ∧ t = failSession code s)

/-- What a status that is not OK leaves behind, by the opcode of the command that returns it. -/
def ErrorEffect (s t : State) (code : Status) : Opcode → Prop
  | .scClose => s.sess = .idle → code = .eNosess ∧ t = respond code [] s
  | .hxDchr | .hxDend => code = .eHex ∧ t = respond code [] { s with hxpend := false }
  | .hxDnib => code = .eHex ∧ t = respond code [] s
  | .nop | .scOpen | .hxEnib | .hxEbyt => False
  | .scKeyhex | .scByte | .scEncu | .scDech | .ksKeyb | .ksGen | .ksFeed => GatedError s t code

section

variable {s t : State} {i : Instr} {code : Status}

theorem errorEffect_of_gated {op : Opcode} (hop : isGated op = true) (h : GatedError s t code) :
    ErrorEffect s t code op := by
  cases op with
  | nop | scOpen | scClose | hxDnib | hxEnib | hxDchr | hxDend | hxEbyt => cases hop
  | scKeyhex | scByte | scEncu | scDech | ksKeyb | ksGen | ksFeed => exact h

theorem errorEffect_of_turnedAway (h : TurnedAway s t i) :
    ∃ code, t.responses = s.responses ++ [⟨code, []⟩] ∧ ErrorEffect s t code i.opcode := by
  obtain ⟨code, rfl, hcode⟩ := h
  refine ⟨code, rfl, ?_⟩
  obtain ⟨-, hnosess, hi | rfl⟩ | ⟨-, hfailed, hi⟩ | ⟨h, rfl, -, hhex⟩ := hcode
  · exact errorEffect_of_gated hi (.inl ⟨.inl hnosess, rfl⟩)
  · exact fun _ => ⟨hnosess, rfl⟩
  · exact errorEffect_of_gated hi (.inl ⟨.inr hfailed, rfl⟩)
  · exact ⟨hhex, rfl⟩

theorem errorEffect_of_failsSession (h : FailsSession s t i) :
    ∃ code, t.responses = s.responses ++ [⟨code, []⟩] ∧ ErrorEffect s t code i.opcode := by
  obtain ⟨code, rfl, -, hi, hcode⟩ := h
  have hkind : code = .eKeylen ∨ code = .eHex ∨ code = .eMode := hcode.imp_right (Or.imp_right And.left)
  exact ⟨code, rfl, errorEffect_of_gated hi (.inr ⟨hkind, rfl⟩)⟩

theorem errorEffect_of_codecError {op : Opcode} (h : CodecError s t op) : ErrorEffect s t .eHex op := by
  obtain ⟨rfl | rfl, ht⟩ := h
  · exact ⟨rfl, ht⟩
  · exact ⟨rfl, ht⟩

theorem errorEffect_of_exec (h : exec i s = .next t) : ∃ r : Response, t.responses = s.responses ++ [r] ∧
    (r.status ≠ .ok → ErrorEffect s t r.status i.opcode) := by
  obtain haway | hfails | hown := exec_cases h
  · obtain ⟨code, hr, heffect⟩ := errorEffect_of_turnedAway haway
    exact ⟨_, hr, fun _ => heffect⟩
  · obtain ⟨code, hr, heffect⟩ := errorEffect_of_failsSession hfails
    exact ⟨_, hr, fun _ => heffect⟩
  · obtain hc | hcodec | ⟨d, -, rfl⟩ | ⟨rfl, hs, rfl⟩ := ownEffect_cases hown
    · obtain ⟨bytes, hr⟩ := hc.responses
      exact ⟨_, hr, fun hok => absurd rfl hok⟩
    · exact ⟨⟨.eHex, []⟩, by rw [hcodec.2, respond_responses], fun _ => errorEffect_of_codecError hcodec⟩
    · exact ⟨_, rfl, fun hok => absurd rfl hok⟩
    · exact ⟨_, rfl, fun _ hidle => absurd hidle hs⟩

theorem sess_of_scClose (h : exec .scClose s = .next t) : t.sess = .idle := by
  by_cases hs : s.sess = .idle
  · rw [exec_scClose_of_idle hs] at h
    cases h
    exact hs
  · rw [exec_scClose_of_session hs] at h
    cases h
    rfl

end

/-- Settles O21: the one response that a command adds says which kind of error it met, if any. -/
theorem errorsByTheirEffect : Obligations.ErrorsByTheirEffect := by
  refine ⟨fun i s t code bytes h hr hcode => ?_, fun _ _ => sess_of_scClose, fun _ _ _ _ => step_of_illegal⟩
  obtain ⟨r, hr', heffect⟩ := errorEffect_of_exec h
  obtain rfl : r = ⟨code, bytes⟩ := by simpa [hr'] using hr
  have herror := heffect hcode
  cases i <;> exact herror

/-! ## Without a session (R231) -/

theorem errorEffect_ungated {s t : State} {code : Status} {op : Opcode} (h : ErrorEffect s t code op)
    (hop : isGated op = false) (hclose : op ≠ .scClose) : code = .eHex ∧ isCodec op = true := by
  cases op with
  | hxDnib | hxDchr | hxDend => exact ⟨h.1, rfl⟩
  | nop | scOpen | hxEnib | hxEbyt => exact h.elim
  | scClose => exact absurd rfl hclose
  | scKeyhex | scByte | scEncu | scDech | ksKeyb | ksGen | ksFeed => cases hop

theorem opcode_eq_scClose {i : Instr} (h : i.opcode = .scClose) : i = .scClose := by
  cases i with
  | scClose => rfl
  | _ => cases h

/-- Settles O20: the gate and `SC_CLOSE` reject without a session, and the other commands have codec errors only. -/
theorem commandsOfTheResetState : Obligations.CommandsOfTheResetState := by
  refine ⟨fun i s hs hi => ?_, fun i s hi hclose => ?_⟩
  · obtain hi | rfl := hi
    · exact gated_rejects_of_idle hi hs
    · exact exec_scClose_of_idle hs
  · obtain ⟨t, ht⟩ := exec_answers i s
    obtain ⟨r, hr, heffect⟩ := errorEffect_of_exec ht
    refine ⟨t, r, ht, hr, or_iff_not_imp_left.2 fun hbad => ?_⟩
    exact errorEffect_ungated (heffect hbad) hi fun hop => hclose (opcode_eq_scClose hop)

/-! ## The moves of `SESS` (R28, R204) -/

theorem failsSession_moves {s t : State} {i : Instr} (h : FailsSession s t i) : isGated i.opcode = true ∧
    s.sess = .opened ∧ t.sess = .failed ∧ t.responses = s.responses ++ [⟨t.err, []⟩] ∧ t.err ≠ .ok := by
  obtain ⟨code, rfl, hs, hi, hcode⟩ := h
  have hbad : code ≠ .ok := by rintro rfl; simp at hcode
  exact ⟨hi, hs, rfl, rfl, hbad⟩

/-- Settles O23: a rejection, a codec error and a command that completes keep `SESS`; the rest are the three moves. -/
theorem sessionStateMoves : Obligations.SessionStateMoves := by
  intro i s t h hmove
  obtain ⟨code, rfl, -⟩ | hfails | hown := exec_cases h
  · exact absurd rfl hmove
  · exact .inr (.inr (failsSession_moves hfails))
  · obtain hc | ⟨-, rfl⟩ | ⟨d, rfl, rfl⟩ | ⟨rfl, -, rfl⟩ := ownEffect_cases hown
    · exact absurd hc.sess hmove
    · exact absurd rfl hmove
    · exact .inl ⟨rfl, rfl⟩
    · exact .inr (.inl ⟨rfl, rfl⟩)

end Sys2Proof.Machine

/-!
Proofs: reset (70_reset_and_hazards.md). A step on the reset event leaves `assertReset`, whose registers are those of the
reset state.
-/

namespace Sys2Proof.Machine

theorem step_of_reset {s : State} {rest : List HostEvent} (hs : s.inbox = .reset :: rest) :
    step s = .next (assertReset { s with inbox := rest }) := by
  simp [step, nextEvent, hs]

/-- The reset column of R36 for the state array. -/
theorem reset_x_getElem (i : Fin 8) : State.reset.x[i] = 0 := by
  have hx : State.reset.x = Vector.replicate 8 0 := rfl
  rw [hx]
  exact Vector.getElem_replicate i.isLt

/-- Settles O10: the step leaves the registers of the reset state; the array is read word by word, the rest by `rfl`. -/
theorem resetClearsEveryRegister : Obligations.ResetClearsEveryRegister := by
  intro s rest hs
  refine ⟨_, step_of_reset hs, ?_⟩
  have hx : ∀ i : Fin 8, (assertReset { s with inbox := rest }).x[i] = 0 := reset_x_getElem
  exact ⟨rfl, rfl, rfl, rfl, hx, rfl, rfl, rfl, rfl, rfl, rfl, rfl, rfl, rfl, rfl, rfl⟩

end Sys2Proof.Machine

/-!
Proofs: the invariant of R39 (10_state.md section 8). Every command ends in a response, so one lemma reduces the
invariant after a command to the invariant of the registers it leaves; these are looked at once for each kind of effect.
-/

namespace Sys2Proof.Machine

/-! ## Legal responses (R74) -/

theorem legal_nil (st : Status) : Response.Legal ⟨st, []⟩ := ⟨Nat.zero_le _, fun _ => rfl⟩

theorem legal_ok {bytes : List Byte} (h : bytes.length ≤ 4) : Response.Legal ⟨.ok, bytes⟩ :=
  ⟨h, fun hbad => absurd rfl hbad⟩

/-! ## Register updates that keep the invariant -/

section

variable {s u : State}

theorem BlockInv.respond {st : Status} {bytes : List Byte} (h : BlockInv s) (hr : Response.Legal ⟨st, bytes⟩) :
    BlockInv (respond st bytes s) :=
  { h with
    responses_legal := by
      intro r hmem
      obtain hold | hnew := List.mem_append.1 hmem
      · exact h.responses_legal r hold
      · rwa [List.mem_singleton.1 hnew] }

/-- The codec's registers and the host's events are outside the invariant. -/
theorem BlockInv.outside (h : BlockInv s) (p : Bool) (v : Nibble) (es : List HostEvent) :
    BlockInv { s with hxpend := p, hxhi := v, inbox := es } := { h with }

/-- In a session without an error the invariant is about the key, the accumulators and the responses only. -/
theorem blockInv_of_opened (hs : u.sess = .opened) (he : u.err = .ok) (hk : u.keycnt.toNat ≤ Config.keylen)
    (hacc : u.keycnt.toNat < Config.keylen → u.t = 0 ∧ u.c = 0)
    (htail : u.keycnt.toNat < Config.keylen → ∀ k : Fin 16, u.keycnt.toNat ≤ k.val → keyByteAt u.x k = 0)
    (hr : ∀ r ∈ u.responses, Response.Legal r) : BlockInv u where
  keycnt_le := hk
  err_iff_failed := by simp [hs, he]
  err_legal := .inl he
  idle_cleared := by simp [hs]
  no_keystream_before_key := hacc
  key_tail_zero := htail
  responses_legal := hr

theorem BlockInv.err_of_opened (h : BlockInv s) (hs : s.sess = .opened) : s.err = .ok := by
  by_contra hbad
  have hfailed := h.err_iff_failed.1 hbad
  rw [hs] at hfailed
  cases hfailed

/-- Once the key is complete nothing is asked of `X`, `T` and `c`. -/
theorem blockInv_of_ready (h : Ready u) (he : u.err = .ok) (hr : ∀ r ∈ u.responses, Response.Legal r) : BlockInv u := by
  obtain ⟨hs, -, hk⟩ := h
  have hfull : ¬ u.keycnt.toNat < Config.keylen := by rw [hk]; decide
  exact blockInv_of_opened hs he (by rw [hk]; decide) (fun hlt => absurd hlt hfull) (fun hlt => absurd hlt hfull) hr

/-- `ClearSession` leaves an array of zeros. -/
theorem keyByteAt_zero (k : Fin 16) : keyByteAt #v[0, 0, 0, 0, 0, 0, 0, 0] k = 0 := by revert k; decide

theorem BlockInv.opened (h : BlockInv s) (d : Direction) :
    BlockInv { clearSession s with dir := d, sess := .opened } :=
  blockInv_of_opened rfl rfl (Nat.zero_le _) (fun _ => ⟨rfl, rfl⟩) (fun _ k _ => keyByteAt_zero k) h.responses_legal

theorem BlockInv.closed (h : BlockInv s) : BlockInv { clearSession s with sess := .idle } where
  keycnt_le := Nat.zero_le _
  err_iff_failed := by simp
  err_legal := .inl rfl
  idle_cleared := fun _ => ⟨rfl, rfl, rfl, rfl, rfl, rfl, rfl, rfl, rfl, rfl, rfl, rfl⟩
  no_keystream_before_key := fun _ => ⟨rfl, rfl⟩
  key_tail_zero := fun _ k _ => keyByteAt_zero k
  responses_legal := h.responses_legal

theorem BlockInv.failed {code : Status} (h : BlockInv s) (hcode : code = .eKeylen ∨ code = .eHex ∨ code = .eMode) :
    BlockInv { s with sess := .failed, err := code } :=
  { h with
    err_iff_failed := by obtain rfl | rfl | rfl := hcode <;> simp
    err_legal := .inr hcode
    idle_cleared := nofun }

/-- `KEYCNT` counts up without a carry out of its five bits, as a key byte is loaded below 16 only (R30). -/
theorem keycnt_add_one {n : BitVec 5} (hle : n.toNat ≤ 16) (hne : n ≠ 16) :
    n.toNat < 16 ∧ (n + 1).toNat = n.toNat + 1 := by
  have hlt : n.toNat < 16 := lt_of_le_of_ne hle fun he => hne (BitVec.eq_of_toNat_eq he)
  refine ⟨hlt, ?_⟩
  rw [BitVec.toNat_add]
  exact Nat.mod_eq_of_lt (show n.toNat + 1 < 2 ^ 5 by omega)

/-- The new byte goes to the first position not loaded yet, so the positions behind it stay 0. -/
theorem BlockInv.keyWrite (h : BlockInv s) (hs : s.sess = .opened) (hk : s.keycnt ≠ 16) (b : Byte) :
    BlockInv (keyWrite b s) := by
  obtain ⟨hlt, hnext⟩ := keycnt_add_one h.keycnt_le hk
  refine blockInv_of_opened hs (h.err_of_opened hs) ?_ (fun _ => h.no_keystream_before_key hlt) (fun _ k hle => ?_)
    h.responses_legal
  · rw [keyWrite_keycnt, hnext]
    exact hlt
  · rw [keyWrite_keycnt, hnext] at hle
    have hother : k ≠ ⟨s.keycnt.toNat, hlt⟩ := fun he => by simp [he] at hle
    rw [keyWrite_other b s ⟨s.keycnt.toNat, hlt⟩ k rfl hother]
    exact h.key_tail_zero hlt k (by omega)

/-- In a session the hold registers and their flags are outside the invariant. -/
theorem BlockInv.holds (h : BlockInv s) (hs : s.sess = .opened) (kp dp wp : Bool) (kh dh : Nibble) (wh : Byte) :
    BlockInv { s with kpend := kp, khi := kh, dpend := dp, dhi := dh, wpend := wp, whi := wh } :=
  { h with idle_cleared := fun hidle => by rw [hs] at hidle; cases hidle }

/-! ## The data commands -/

/-- What a data command keeps of a ready session: it stays ready, without an error, and adds no response by itself. -/
def KeepsReady (s u : State) : Prop :=
  u.sess = s.sess ∧ u.kpend = s.kpend ∧ u.keycnt = s.keycnt ∧ u.err = s.err ∧ u.responses = s.responses

theorem KeepsReady.trans {v : State} (hu : KeepsReady s u) (hv : KeepsReady u v) : KeepsReady s v := by
  obtain ⟨hsess, hkpend, hkeycnt, herr, hresp⟩ := hu
  obtain ⟨hsess', hkpend', hkeycnt', herr', hresp'⟩ := hv
  exact ⟨hsess'.trans hsess, hkpend'.trans hkpend, hkeycnt'.trans hkeycnt, herr'.trans herr, hresp'.trans hresp⟩

/-- The registers a draw and a step write, without the values: comparing two states then does not run the rounds. -/
theorem exists_runGen_eq (s : State) : ∃ t c, (runGen s).2 = setAccumulators t c s := by
  rw [runGen_eq]
  exact ⟨_, _, rfl⟩

theorem exists_cipherStep_eq (z : Byte) (s : State) : ∃ f t c, (cipherStep z s).2 = feed f (setAccumulators t c s) := by
  rw [cipherStep_eq]
  exact ⟨_, _, _, rfl⟩

theorem keepsReady_runGen (s : State) : KeepsReady s (runGen s).2 := by
  obtain ⟨t, c, e⟩ := exists_runGen_eq s
  rw [e]
  exact ⟨rfl, rfl, rfl, rfl, rfl⟩

theorem keepsReady_feed (b : Byte) (s : State) : KeepsReady s (feed b s) := ⟨rfl, rfl, rfl, rfl, rfl⟩

theorem keepsReady_cipherStep (z : Byte) (s : State) : KeepsReady s (cipherStep z s).2 := by
  obtain ⟨f, t, c, e⟩ := exists_cipherStep_eq z s
  rw [e]
  exact ⟨rfl, rfl, rfl, rfl, rfl⟩

theorem KeepsReady.ready (h : KeepsReady s u) (hr : Ready s) : Ready u := by
  obtain ⟨hsess, hkpend, hkeycnt, -, -⟩ := h
  obtain ⟨hs, hp, hk⟩ := hr
  exact ⟨hsess.trans hs, hkpend.trans hp, hkeycnt.trans hk⟩

theorem KeepsReady.blockInv (h : KeepsReady s u) (hr : Ready s) (hinv : BlockInv s) : BlockInv u := by
  have hready := h.ready hr
  obtain ⟨-, -, -, herr, hresp⟩ := h
  exact blockInv_of_ready hready (herr.trans (hinv.err_of_opened hr.1)) (hresp ▸ hinv.responses_legal)

theorem BlockInv.pairCodeUnit (h : BlockInv s) (hs : s.sess = .opened) (p : Byte) : BlockInv (pairCodeUnit p s) := by
  obtain ⟨-, e⟩ | ⟨-, e⟩ := pairCodeUnit_cases p s <;> rw [e]
  · exact (h.holds hs s.kpend s.dpend false s.khi s.dhi s.whi).respond (legal_ok (by simp))
  · exact (h.holds hs s.kpend s.dpend true s.khi s.dhi p).respond (legal_nil _)

end

/-! ## Every step -/

theorem blockInv_of_turnedAway {s t : State} {i : Instr} (hinv : BlockInv s) (h : TurnedAway s t i) : BlockInv t := by
  obtain ⟨code, rfl, -⟩ := h
  exact hinv.respond (legal_nil _)

theorem blockInv_of_failsSession {s t : State} {i : Instr} (hinv : BlockInv s) (h : FailsSession s t i) :
    BlockInv t := by
  obtain ⟨code, rfl, -, -, hcode⟩ := h
  exact (hinv.failed (hcode.imp_right (Or.imp_right And.left))).respond (legal_nil _)

theorem blockInv_of_ownEffect {s t : State} {i : Instr} (hinv : BlockInv s) (h : OwnEffect s t i) : BlockInv t := by
  cases i with
  | nop => subst h; exact hinv.respond (legal_nil _)
  | scOpen d => subst h; exact (hinv.opened d).respond (legal_nil _)
  | scClose => obtain ⟨-, rfl⟩ := h; exact hinv.closed.respond (legal_nil _)
  | scKeyhex =>
    obtain ⟨hs, v, -, ⟨-, rfl⟩ | ⟨-, hk, rfl⟩⟩ := h
    · exact (hinv.holds hs true s.dpend s.wpend v s.dhi s.whi).respond (legal_nil _)
    · exact ((hinv.keyWrite hs hk _).holds hs false s.dpend s.wpend s.khi s.dhi s.whi).respond (legal_nil _)
  | scByte b => obtain ⟨hr, rfl⟩ := h; exact ((keepsReady_cipherStep b s).blockInv hr hinv).respond (legal_ok (by simp))
  | scEncu =>
    obtain ⟨hr, -, p, q, rfl, rfl, rfl⟩ := h
    exact (((keepsReady_cipherStep _ s).trans (keepsReady_cipherStep _ _)).blockInv hr hinv).respond
      (legal_ok (Nat.le_refl 4))
  | scDech =>
    obtain ⟨hr, -, v, -, ⟨-, rfl⟩ | ⟨-, p, rfl, rfl⟩⟩ := h
    · exact (hinv.holds hr.1 s.kpend true s.wpend s.khi v s.whi).respond (legal_nil _)
    · have hkeeps := keepsReady_cipherStep (joinNibbles s.dhi v) { s with dpend := false }
      have hheld := hinv.holds hr.1 s.kpend false s.wpend s.khi s.dhi s.whi
      exact (hkeeps.blockInv hr hheld).pairCodeUnit (hkeeps.ready hr).1 _
  | ksKeyb b => obtain ⟨hs, -, hk, rfl⟩ := h; exact (hinv.keyWrite hs hk b).respond (legal_nil _)
  | ksGen =>
    obtain ⟨hr, p, rfl, rfl⟩ := h
    exact ((keepsReady_runGen s).blockInv hr hinv).respond (legal_ok (by simp))
  | ksFeed b => obtain ⟨hr, rfl⟩ := h; exact ((keepsReady_feed b s).blockInv hr hinv).respond (legal_nil _)
  | hxDnib => obtain ⟨_, -, rfl⟩ := h; exact hinv.respond (legal_ok (by simp))
  | hxEnib => subst h; exact hinv.respond (legal_ok (by simp))
  | hxDchr =>
    obtain ⟨-, rfl⟩ | ⟨v, -, ⟨-, rfl⟩ | ⟨-, rfl⟩⟩ := h
    · exact (hinv.outside false s.hxhi s.inbox).respond (legal_nil _)
    · exact (hinv.outside true v s.inbox).respond (legal_nil _)
    · exact (hinv.outside false s.hxhi s.inbox).respond (legal_ok (by simp))
  | hxDend =>
    obtain ⟨-, rfl⟩ | ⟨-, rfl⟩ := h
    · exact (hinv.outside false s.hxhi s.inbox).respond (legal_nil _)
    · exact hinv.respond (legal_nil _)
  | hxEbyt => subst h; exact hinv.respond (legal_ok (by simp [hexPair]))

theorem blockInv_of_exec {s t : State} {i : Instr} (hinv : BlockInv s) (h : exec i s = .next t) : BlockInv t := by
  obtain haway | hfails | hown := exec_cases h
  · exact blockInv_of_turnedAway hinv haway
  · exact blockInv_of_failsSession hinv hfails
  · exact blockInv_of_ownEffect hinv hown

/-- Settles O24: after reset no key byte is loaded and no response is pending. -/
theorem resetSatisfiesInvariant : Obligations.ResetSatisfiesInvariant where
  keycnt_le := Nat.zero_le _
  err_iff_failed := by decide
  err_legal := .inl rfl
  idle_cleared := fun _ => ⟨rfl, rfl, rfl, rfl, rfl, rfl, rfl, rfl, rfl, rfl, rfl, rfl⟩
  no_keystream_before_key := fun _ => ⟨rfl, rfl⟩
  key_tail_zero := fun _ k _ => keyByteAt_zero k
  responses_legal := nofun

/-- Settles O25: a step waits, hands over a response, resets, refuses a word or runs a command, and each of these keeps
the invariant. -/
theorem stepKeepsInvariant : Obligations.StepKeepsInvariant := by
  intro s t hinv h
  have harrived (rest : List HostEvent) : BlockInv { s with inbox := rest } := hinv.outside s.hxpend s.hxhi rest
  obtain ⟨-, rfl⟩ | ⟨rest, -, rfl⟩ | ⟨rest, -, rfl⟩ | ⟨w, rest, i, -, -, hexec⟩ | ⟨w, rest, why, -, -, rfl⟩ :=
    step_cases h
  · exact hinv
  · exact { harrived rest with
      responses_legal := fun r hr => hinv.responses_legal r (List.mem_of_mem_tail hr) }
  · exact resetSatisfiesInvariant.outside false 0 rest
  · exact blockInv_of_exec (harrived rest) hexec
  · exact (harrived rest).respond (legal_nil _)

end Sys2Proof.Machine

/-!
Proofs: the step and its runs (20_memory.md, 30_encoding.md). A run of the machine over issued commands is compared with
the execution of the commands one at a time: no command reads the host's later events or the earlier responses. In the
same way no session command reads the codec's registers.
-/

namespace Sys2Proof.Machine

/-! ## Worked encodings (R82) -/

/-- Settles O1: the fields of a few fixed words, evaluated. -/
theorem workedEncodings : Obligations.WorkedEncodings := by
  unfold Obligations.WorkedEncodings
  decide

/-! ## One step, by the next event -/

section

variable {s : State} {rest : List HostEvent}

theorem step_of_waiting (hs : s.inbox = []) : step s = .next s := by simp [step, nextEvent, hs]

theorem step_of_take (hs : s.inbox = .take :: rest) : step s = .next (takeResponse { s with inbox := rest }) := by
  simp [step, nextEvent, hs]

theorem step_of_encode {i : Instr} (hs : s.inbox = .command (encode i) :: rest) :
    step s = exec i { s with inbox := rest } := step_of_command hs (decode_encode i)

end

/-- No event stops the machine (log entry 12). -/
theorem step_answers (s : State) : ∃ t, step s = .next t := by
  cases hs : s.inbox with
  | nil => exact ⟨_, step_of_waiting hs⟩
  | cons e rest =>
    cases e with
    | take => exact ⟨_, step_of_take hs⟩
    | reset => exact ⟨_, step_of_reset hs⟩
    | command w =>
      cases hd : decode w with
      | command i =>
        rw [step_of_command hs hd]
        exact exec_answers i _
      | illegal why => exact ⟨_, step_of_illegal hs hd⟩

/-- Settles O8: the encoding of a command decodes to the command. -/
theorem stepRunsIssuedCommand : Obligations.StepRunsIssuedCommand := fun _ _ _ => step_of_encode

theorem decode_of_decodeTableWord {n w : Nat} {i : Instr} (h : decodeTableWord n w = some i) :
    decode (tableWord n w) = .command i := by
  unfold decodeTableWord at h
  split at h
  next hd => rw [hd, Option.some.inj h]
  next => cases h

/-- Settles O9: one clause for each kind of event, and the placed word is the first command to arrive. -/
theorem hostEventsOfTheModel : Obligations.HostEventsOfTheModel := by
  refine ⟨fun s w i hw => ?_, fun s => step_of_waiting, fun s rest r rs hs hr => ?_, fun s rest hs hr => ?_,
    fun s rest => step_of_reset⟩
  · exact step_of_command (s := s.withFetchWord 32 w) rfl (decode_of_decodeTableWord hw)
  · have htail : s.responses.tail = rs := by rw [hr, List.tail_cons]
    rw [step_of_take hs, takeResponse, htail]
  · have htail : s.responses.tail = s.responses := by rw [hr, List.tail_nil]
    rw [step_of_take hs, takeResponse, htail]

/-- Settles O12: every step has a next state, so the run goes on to its end. -/
theorem everyRunIsSafe : Obligations.EveryRunIsSafe := by
  intro n
  induction n with
  | zero => exact fun s => ⟨s, rfl⟩
  | succ n ih =>
    intro s
    obtain ⟨t, ht⟩ := step_answers s
    obtain ⟨u, hu⟩ := ih t
    exact ⟨u, (runSteps_succ ht).trans hu⟩

/-! ## Instances (R61) -/

theorem stepInstance_of_step {bank : List State} {k : Nat} {s t : State} (hk : bank[k]? = some s)
    (h : step s = .next t) : stepInstance k bank = .next (bank.set k t) := by
  simp [stepInstance, hk, h]

/-- Settles O13: the step replaces one element of the list. -/
theorem instancesShareNothing : Obligations.InstancesShareNothing := by
  intro bank k s t hk h
  have hlt : k < bank.length := (List.getElem?_eq_some_iff.1 hk).1
  exact ⟨_, stepInstance_of_step hk h, List.getElem?_set_self hlt, fun j hj => List.getElem?_set_ne hj.symm⟩

/-! ## What no command reads -/

/-- The state with other events to come and other earlier responses. -/
def withHost (es : List HostEvent) (rs : List Response) (s : State) : State := { s with inbox := es, responses := rs }

/-- The state with, besides, other registers of the stand-alone codec (R35). -/
def withOutside (p : Bool) (v : Nibble) (es : List HostEvent) (rs : List Response) (s : State) : State :=
  { s with hxpend := p, hxhi := v, inbox := es, responses := rs }

/-- From states that differ only outside the session, the body gives one response and states that differ in the same
way. -/
def IgnoresOutside (body : State → State) : Prop :=
  ∀ s, ∃ r, ∀ p v es rs, body (withOutside p v es rs s) = withOutside p v es (rs ++ [r]) (body s)

section

variable {body : State → State}

theorem ignoresOutside_respond (st : Status) (bytes : List Byte) : IgnoresOutside (respond st bytes) :=
  fun _ => ⟨⟨st, bytes⟩, fun _ _ _ _ => rfl⟩

theorem ignoresOutside_failSession (code : Status) : IgnoresOutside (failSession code) :=
  fun _ => ⟨⟨code, []⟩, fun _ _ _ _ => rfl⟩

/-- A check of the session in front of a body. -/
theorem ignoresOutside_check {check : State → Option Status} {out : Status → State → State}
    (hc : ∀ p v es rs s, check (withOutside p v es rs s) = check s) (hout : ∀ code, IgnoresOutside (out code))
    (hb : IgnoresOutside body) :
    IgnoresOutside fun s => match check s with | some code => out code s | none => body s := by
  intro s
  cases h : check s with
  | some code =>
    obtain ⟨r, hr⟩ := hout code s
    exact ⟨r, fun p v es rs => by simp only [hc, h, hr]⟩
  | none =>
    obtain ⟨r, hr⟩ := hb s
    exact ⟨r, fun p v es rs => by simp only [hc, h, hr]⟩

theorem ignoresOutside_gated (hb : IgnoresOutside body) : IgnoresOutside (gated body) :=
  ignoresOutside_check (check := sessionGate) (fun _ _ _ _ _ => rfl) (fun _ => ignoresOutside_respond _ _) hb

theorem ignoresOutside_inMode (d : Direction) (hb : IgnoresOutside body) : IgnoresOutside (inMode d body) :=
  ignoresOutside_check (check := modeCheck d) (fun _ _ _ _ _ => rfl) ignoresOutside_failSession hb

theorem ignoresOutside_withKey (hb : IgnoresOutside body) : IgnoresOutside (withKey body) :=
  ignoresOutside_check (check := keyReady) (fun _ _ _ _ _ => rfl) ignoresOutside_failSession hb

theorem ignoresOutside_withDigit {f : Nibble → State → State} (h : Word) (hf : ∀ v, IgnoresOutside (f v)) :
    IgnoresOutside (withDigit h f) := by
  intro s
  cases hv : hexVal h with
  | none => exact ⟨_, fun _ _ _ _ => by rw [withDigit_none hv, withDigit_none hv]; rfl⟩
  | some v =>
    obtain ⟨r, hr⟩ := hf v s
    exact ⟨r, fun _ _ _ _ => by rw [withDigit_some hv, withDigit_some hv, hr]⟩

/-- A body that branches on a condition of the session. -/
theorem ignoresOutside_ite {c : State → Prop} [DecidablePred c] {f g : State → State}
    (hc : ∀ p v es rs s, c (withOutside p v es rs s) ↔ c s) (hf : IgnoresOutside f) (hg : IgnoresOutside g) :
    IgnoresOutside fun s => if c s then f s else g s := by
  intro s
  by_cases h : c s
  · obtain ⟨r, hr⟩ := hf s
    exact ⟨r, fun p v es rs => by simp only [hc, h, if_true, hr]⟩
  · obtain ⟨r, hr⟩ := hg s
    exact ⟨r, fun p v es rs => by simp only [hc, h, if_false, hr]⟩

theorem cipherStep_withOutside (z : Byte) (p : Bool) (v : Nibble) (es : List HostEvent) (rs : List Response)
    (s : State) : cipherStep z (withOutside p v es rs s) =
      ((cipherStep z s).1, withOutside p v es rs (cipherStep z s).2) := by
  rw [cipherStep_eq, cipherStep_eq]
  rfl

theorem ignoresOutside_pairCodeUnit (b : Byte) : IgnoresOutside (pairCodeUnit b) :=
  ignoresOutside_ite (fun _ _ _ _ _ => Iff.rfl) (fun s => ⟨⟨.ok, [s.whi, b]⟩, fun _ _ _ _ => rfl⟩)
    (fun _ => ⟨⟨.ok, []⟩, fun _ _ _ _ => rfl⟩)

theorem exec_ignoresOutside {i : Instr} (hi : isCodec i.opcode = false) :
    ∃ body, (∀ s, exec i s = .next (body s)) ∧ IgnoresOutside body := by
  cases i with
  | hxDnib | hxEnib | hxDchr | hxDend | hxEbyt => cases hi
  | nop => exact ⟨_, fun _ => rfl, ignoresOutside_respond _ _⟩
  | scOpen => exact ⟨_, fun _ => rfl, fun _ => ⟨⟨.ok, []⟩, fun _ _ _ _ => rfl⟩⟩
  | scClose =>
    refine ⟨_, fun s => (apply_ite Host.Outcome.next (s.sess = .idle) _ _).symm, ignoresOutside_ite
      (fun _ _ _ _ _ => Iff.rfl) (ignoresOutside_respond _ _) fun s => ⟨⟨closeStatus s, []⟩, fun _ _ _ _ => rfl⟩⟩
  | scKeyhex h =>
    refine ⟨_, fun _ => rfl, ignoresOutside_gated (ignoresOutside_withDigit h fun v => ?_)⟩
    refine ignoresOutside_ite (fun _ _ _ _ _ => Iff.rfl) (ignoresOutside_ite (fun _ _ _ _ _ => Iff.rfl)
      (ignoresOutside_failSession _) ?_) ?_
    · exact fun _ => ⟨⟨.ok, []⟩, fun _ _ _ _ => rfl⟩
    · exact fun _ => ⟨⟨.ok, []⟩, fun _ _ _ _ => rfl⟩
  | scByte b =>
    refine ⟨_, fun _ => rfl, ignoresOutside_gated (ignoresOutside_withKey fun s => ?_)⟩
    exact ⟨⟨.ok, [(cipherStep b s).1]⟩, fun _ _ _ _ => by rw [cipherStep_withOutside]; rfl⟩
  | scEncu h =>
    refine ⟨_, fun _ => rfl, ignoresOutside_gated (ignoresOutside_inMode _ (ignoresOutside_withKey fun s => ?_))⟩
    refine ⟨⟨.ok, hexPair (cipherStep (highByte h) s).1 ++
      hexPair (cipherStep (lowByte h) (cipherStep (highByte h) s).2).1⟩, fun _ _ _ _ => ?_⟩
    simp only [cipherStep_withOutside]
    rfl
  | scDech h =>
    refine ⟨_, fun _ => rfl, ignoresOutside_gated (ignoresOutside_inMode _ (ignoresOutside_withKey
      (ignoresOutside_withDigit h fun v => ignoresOutside_ite (fun _ _ _ _ _ => Iff.rfl) (fun s => ?_)
        fun _ => ⟨⟨.ok, []⟩, fun _ _ _ _ => rfl⟩)))⟩
    obtain ⟨r, hr⟩ := ignoresOutside_pairCodeUnit (cipherStep (joinNibbles s.dhi v) { s with dpend := false }).1
      (cipherStep (joinNibbles s.dhi v) { s with dpend := false }).2
    refine ⟨r, fun p w es rs => ?_⟩
    rw [← hr]
    exact congrArg (fun q : Byte × State => pairCodeUnit q.1 q.2)
      (cipherStep_withOutside (joinNibbles s.dhi v) p w es rs { s with dpend := false })
  | ksKeyb b =>
    refine ⟨_, fun _ => rfl, ignoresOutside_gated (ignoresOutside_ite (fun _ _ _ _ _ => Iff.rfl)
      (ignoresOutside_failSession _) (ignoresOutside_ite (fun _ _ _ _ _ => Iff.rfl) (ignoresOutside_failSession _)
        fun _ => ⟨⟨.ok, []⟩, fun _ _ _ _ => rfl⟩))⟩
  | ksGen =>
    refine ⟨_, fun _ => rfl, ignoresOutside_gated (ignoresOutside_withKey fun s => ?_)⟩
    exact ⟨⟨.ok, [highByte (runGen s).1, lowByte (runGen s).1, mask (runGen s).1]⟩, fun _ _ _ _ => rfl⟩
  | ksFeed b =>
    exact ⟨_, fun _ => rfl, ignoresOutside_gated (ignoresOutside_withKey fun _ => ⟨⟨.ok, []⟩, fun _ _ _ _ => rfl⟩)⟩

end

/-- A session command gives the same response whatever stands outside the session, and leaves it there. -/
theorem exec_withOutside {i : Instr} {s t : State} (hi : isCodec i.opcode = false) (h : exec i s = .next t) :
    ∃ r, ∀ p v es rs, exec i (withOutside p v es rs s) = .next (withOutside p v es (rs ++ [r]) t) := by
  obtain ⟨body, hexec, hbody⟩ := exec_ignoresOutside hi
  obtain rfl : body s = t := Host.Outcome.next.inj ((hexec s).symm.trans h)
  obtain ⟨r, hr⟩ := hbody s
  exact ⟨r, fun p v es rs => by rw [hexec, hr]⟩

/-- Settles O27: the two states are one state with two values outside the session. -/
theorem sessionIgnoresCodecState : Obligations.SessionIgnoresCodecState := by
  intro i s s' t hi hsame h
  obtain ⟨r, hr⟩ := exec_withOutside hi h
  have ht : t = withOutside s.hxpend s.hxhi s.inbox (s.responses ++ [r]) t :=
    Host.Outcome.next.inj (h.symm.trans (hr s.hxpend s.hxhi s.inbox s.responses))
  have hs' : s' = withOutside s'.hxpend s'.hxhi s.inbox s'.responses s := hsame
  have hhxpend : t.hxpend = s.hxpend := by rw [ht]; rfl
  have hhxhi : t.hxhi = s.hxhi := by rw [ht]; rfl
  have hresponses : t.responses = s.responses ++ [r] := by rw [ht]; rfl
  refine ⟨withOutside s'.hxpend s'.hxhi s.inbox (s'.responses ++ [r]) t, r, ?_, ?_, hresponses, rfl, hhxpend, hhxhi,
    rfl, rfl⟩
  · conv_lhs => rw [hs']
    exact hr _ _ _ _
  · rw [← inbox_of_exec h]
    rfl

/-! ## A run over issued commands -/

/-- The command gives the same response whatever the host's later events and the earlier responses are. -/
def IgnoresHost (i : Instr) (s : State) : Prop := ∃ t r, exec i s = .next t ∧
  ∀ es rs, exec i (withHost es rs s) = .next (withHost es (rs ++ [r]) t)

theorem ignoresHost_of_session {i : Instr} (hi : isCodec i.opcode = false) (s : State) : IgnoresHost i s := by
  obtain ⟨t, ht⟩ := exec_answers i s
  obtain ⟨r, hr⟩ := exec_withOutside hi ht
  have hself : t = withOutside s.hxpend s.hxhi s.inbox (s.responses ++ [r]) t :=
    Host.Outcome.next.inj (ht.symm.trans (hr s.hxpend s.hxhi s.inbox s.responses))
  refine ⟨t, r, ht, fun es rs => (hr s.hxpend s.hxhi es rs).trans ?_⟩
  conv_rhs => rw [hself]
  rfl

theorem ignoresHost (i : Instr) (s : State) : IgnoresHost i s := by
  cases i with
  | nop | scOpen | scClose | scKeyhex | scByte | scEncu | scDech | ksKeyb | ksGen | ksFeed =>
    exact ignoresHost_of_session rfl s
  | hxDnib c =>
    cases hv : hexVal c with
    | none => exact ⟨_, ⟨.eHex, []⟩, exec_hxDnib_of_undefined hv, fun _ _ => exec_hxDnib_of_undefined hv⟩
    | some v => exact ⟨_, ⟨.ok, [v.setWidth 8]⟩, exec_hxDnib_of_digit hv, fun _ _ => exec_hxDnib_of_digit hv⟩
  | hxEnib n => exact ⟨_, ⟨.ok, [hexChr n]⟩, exec_hxEnib n, fun _ _ => exec_hxEnib n⟩
  | hxDchr c =>
    cases hv : hexVal c with
    | none => exact ⟨_, ⟨.eHex, []⟩, exec_hxDchr_of_undefined hv, fun _ _ => exec_hxDchr_of_undefined hv⟩
    | some v =>
      cases hp : s.hxpend with
      | false => exact ⟨_, ⟨.ok, []⟩, exec_hxDchr_first hv hp, fun _ _ => exec_hxDchr_first hv hp⟩
      | true =>
        exact ⟨_, ⟨.ok, [joinNibbles s.hxhi v]⟩, exec_hxDchr_second hv hp, fun _ _ => exec_hxDchr_second hv hp⟩
  | hxDend =>
    cases hp : s.hxpend with
    | false => exact ⟨_, ⟨.ok, []⟩, exec_hxDend_even hp, fun _ _ => exec_hxDend_even hp⟩
    | true => exact ⟨_, ⟨.eHex, []⟩, exec_hxDend_odd hp, fun _ _ => exec_hxDend_odd hp⟩
  | hxEbyt b => exact ⟨_, ⟨.ok, hexPair b⟩, exec_hxEbyt b, fun _ _ => exec_hxEbyt b⟩

/-- Waiting events pass through a command. -/
theorem exec_of_issued {i : Instr} {s t : State} (es : List HostEvent) (h : exec i s = .next t) :
    exec i { s with inbox := es } = .next { t with inbox := es } := by
  obtain ⟨u, r, hu, hr⟩ := ignoresHost i s
  obtain rfl : u = t := Host.Outcome.next.inj (hu.symm.trans h)
  have hself : u = withHost s.inbox (s.responses ++ [r]) u :=
    Host.Outcome.next.inj (h.symm.trans (hr s.inbox s.responses))
  refine (hr es s.responses).trans ?_
  conv_rhs => rw [hself]
  rfl

/-- The state with the commands issued, none of them arrived yet. -/
def issue (is : List Instr) (s : State) : State := { s with inbox := is.map fun i => HostEvent.command (encode i) }

/-- The first step executes the first command and leaves the others issued. -/
theorem step_issue {i : Instr} {rest : List Instr} {s t : State} (h : exec i s = .next t) :
    step (issue (i :: rest) s) = .next (issue rest t) :=
  (step_of_encode (s := issue (i :: rest) s) rfl).trans (exec_of_issued (s := s) _ h)

/-- Settles O11: by induction on the list, one step for each command. -/
theorem runExecutesCommandsInOrder : Obligations.RunExecutesCommandsInOrder := by
  intro is
  induction is with
  | nil =>
    intro s hs
    simp only [List.map_nil, List.length_nil, runSteps_zero, runInstrs_nil, ← hs]
  | cons i rest ih =>
    intro s hs
    obtain ⟨t, ht⟩ := exec_answers i s
    rw [List.length_cons, runInstrs_cons ht, ← ih t ((inbox_of_exec ht).trans hs)]
    exact runSteps_succ (step_issue ht)

end Sys2Proof.Machine

/-!
Proofs: what each command writes (10_state.md sections 4 to 6 and 8) and what it can return (60_exceptions.md
section 1).
-/

namespace Sys2Proof.Machine

/-! ## The frame of every command (R36) -/

/-- The registers outside the lists of R36 of a command of the opcode are unchanged, and so are the host's events. -/
def KeepsUnlisted (op : Opcode) (gatedCommand : Bool) (s t : State) : Prop :=
  (op ∉ [.ksKeyb, .scKeyhex, .ksFeed, .scByte, .scEncu, .scDech, .scOpen, .scClose] → t.x = s.x) ∧
  (op ∉ [.ksGen, .scByte, .scEncu, .scDech, .scOpen, .scClose] → t.t = s.t ∧ t.c = s.c) ∧
  (op ∉ [.scOpen, .scClose] → gatedCommand = false → t.sess = s.sess ∧ t.err = s.err) ∧
  (op ∉ [.scOpen, .scClose] → t.dir = s.dir) ∧
  (op ∉ [.ksKeyb, .scKeyhex, .scOpen, .scClose] → t.keycnt = s.keycnt) ∧
  (op ∉ [.scKeyhex, .scOpen, .scClose] → t.kpend = s.kpend ∧ t.khi = s.khi) ∧
  (op ∉ [.scDech, .scOpen, .scClose] → t.dpend = s.dpend ∧ t.dhi = s.dhi ∧ t.wpend = s.wpend ∧ t.whi = s.whi) ∧
  (op ∉ [.hxDchr, .hxDend] → t.hxpend = s.hxpend) ∧
  (op ∉ [.hxDchr] → t.hxhi = s.hxhi) ∧
  t.inbox = s.inbox

section

variable {s t : State} {i : Instr}

theorem keepsUnlisted_respond (op : Opcode) (g : Bool) (st : Status) (bytes : List Byte) (s : State) :
    KeepsUnlisted op g s (respond st bytes s) := by simp [KeepsUnlisted]

theorem keepsUnlisted_failSession (op : Opcode) (code : Status) (s : State) :
    KeepsUnlisted op true s (failSession code s) := by simp [KeepsUnlisted]

/-- The own effect of each command, register by register. -/
theorem keepsUnlisted_of_ownEffect (h : OwnEffect s t i) : KeepsUnlisted i.opcode (isGated i.opcode) s t := by
  cases i with
  | nop | hxEnib | hxEbyt => subst h; exact keepsUnlisted_respond _ _ _ _ s
  | scOpen => subst h; simp [KeepsUnlisted, Instr.opcode]
  | scClose => obtain ⟨-, rfl⟩ := h; simp [KeepsUnlisted, Instr.opcode]
  | scKeyhex => obtain ⟨-, _, -, ⟨-, rfl⟩ | ⟨-, -, rfl⟩⟩ := h <;> simp [KeepsUnlisted, Instr.opcode, isGated]
  | scByte b =>
    obtain ⟨-, rfl⟩ := h
    obtain ⟨f, t', c', e⟩ := exists_cipherStep_eq b s
    rw [e]
    simp [KeepsUnlisted, Instr.opcode, isGated]
  | scEncu h' =>
    obtain ⟨-, -, p, q, rfl, rfl, rfl⟩ := h
    obtain ⟨f, t', c', e⟩ := exists_cipherStep_eq (highByte h') s
    obtain ⟨f', t'', c'', e'⟩ := exists_cipherStep_eq (lowByte h') (cipherStep (highByte h') s).2
    rw [e', e]
    simp [KeepsUnlisted, Instr.opcode, isGated]
  | scDech =>
    obtain ⟨-, -, v, -, ⟨-, rfl⟩ | ⟨-, p, rfl, rfl⟩⟩ := h
    · simp [KeepsUnlisted, Instr.opcode, isGated]
    · obtain ⟨f, t', c', e⟩ := exists_cipherStep_eq (joinNibbles s.dhi v) { s with dpend := false }
      rw [e]
      obtain ⟨-, e'⟩ | ⟨-, e'⟩ := pairCodeUnit_cases (cipherStep (joinNibbles s.dhi v) { s with dpend := false }).1
          (feed f (setAccumulators t' c' { s with dpend := false })) <;> rw [e'] <;>
        simp [KeepsUnlisted, Instr.opcode, isGated]
  | ksKeyb => obtain ⟨-, -, -, rfl⟩ := h; simp [KeepsUnlisted, Instr.opcode, isGated]
  | ksGen =>
    obtain ⟨-, _, rfl, rfl⟩ := h
    obtain ⟨t', c', e⟩ := exists_runGen_eq s
    rw [e]
    simp [KeepsUnlisted, Instr.opcode, isGated]
  | ksFeed => obtain ⟨-, rfl⟩ := h; simp [KeepsUnlisted, Instr.opcode, isGated]
  | hxDnib => obtain ⟨_, -, rfl⟩ := h; exact keepsUnlisted_respond _ _ _ _ s
  | hxDchr =>
    obtain ⟨-, rfl⟩ | ⟨_, -, ⟨-, rfl⟩ | ⟨-, rfl⟩⟩ := h <;> simp [KeepsUnlisted, Instr.opcode]
  | hxDend =>
    obtain ⟨-, rfl⟩ | ⟨-, rfl⟩ := h
    · simp [KeepsUnlisted, Instr.opcode]
    · exact keepsUnlisted_respond _ _ _ _ s

end

/-- Settles O22: a rejection writes no register, a failure of the session `SESS` and `ERR` only. -/
theorem registersWrittenOnlyByTheirCommands : Obligations.RegistersWrittenOnlyByTheirCommands := by
  intro i s t h
  obtain ⟨code, rfl, -⟩ | ⟨code, rfl, -, hi, -⟩ | hown := exec_cases h
  · exact keepsUnlisted_respond i.opcode _ code [] s
  · have hframe := keepsUnlisted_failSession i.opcode code s
    rwa [← hi] at hframe
  · exact keepsUnlisted_of_ownEffect hown

/-! ## Differences of key words (R40) -/

/-- Every two words of the arrays have the same exclusive-or. -/
def SameDifferences (x x' : Vector Word 8) : Prop := ∀ j k : Fin 8, x'[j] ^^^ x'[k] = x[j] ^^^ x[k]

theorem SameDifferences.refl (x : Vector Word 8) : SameDifferences x x := fun _ _ => rfl

theorem SameDifferences.trans {x x' x'' : Vector Word 8} (h : SameDifferences x x') (h' : SameDifferences x' x'') :
    SameDifferences x x'' := fun j k => (h' j k).trans (h j k)

/-- `Feed` XORs both words with the same value. -/
theorem sameDifferences_feedArray (u : Byte) (x : Vector Word 8) : SameDifferences x (feedArray u x) := by
  intro j k
  have hxor (a b m : Word) : (a ^^^ m) ^^^ (b ^^^ m) = a ^^^ b := by
    rw [BitVec.xor_comm b m, BitVec.xor_assoc, ← BitVec.xor_assoc m m b, BitVec.xor_self, BitVec.zero_xor]
  simp only [Fin.getElem_fin, feedArray_getElem, hxor]

theorem sameDifferences_cipherStep (z : Byte) (s : State) : SameDifferences s.x (cipherStep z s).2.x := by
  obtain ⟨f, t, c, e⟩ := exists_cipherStep_eq z s
  rw [e]
  exact sameDifferences_feedArray f s.x

theorem pairCodeUnit_x (p : Byte) (s : State) : (pairCodeUnit p s).x = s.x := by
  obtain ⟨-, e⟩ | ⟨-, e⟩ := pairCodeUnit_cases p s <;> rw [e] <;> rfl

/-- With the key complete a command writes `X` by `Feed` only. -/
theorem sameDifferences_of_ownEffect {s t : State} {i : Instr} (hk : s.keycnt = 16) (hopen : i.opcode ≠ .scOpen)
    (hclose : i ≠ .scClose) (h : OwnEffect s t i) : SameDifferences s.x t.x := by
  cases i with
  | nop | hxEnib | hxEbyt => subst h; exact .refl _
  | scOpen => exact absurd rfl hopen
  | scClose => exact absurd rfl hclose
  | scKeyhex =>
    obtain ⟨-, _, -, ⟨-, rfl⟩ | ⟨-, hshort, -⟩⟩ := h
    · exact .refl _
    · exact absurd hk hshort
  | scByte => obtain ⟨-, rfl⟩ := h; exact sameDifferences_cipherStep _ s
  | scEncu =>
    obtain ⟨-, -, _, _, rfl, rfl, rfl⟩ := h
    exact (sameDifferences_cipherStep _ s).trans (sameDifferences_cipherStep _ _)
  | scDech =>
    obtain ⟨-, -, v, -, ⟨-, rfl⟩ | ⟨-, p, rfl, rfl⟩⟩ := h
    · exact .refl _
    · rw [pairCodeUnit_x]
      exact sameDifferences_cipherStep _ { s with dpend := false }
  | ksKeyb => obtain ⟨-, -, hshort, -⟩ := h; exact absurd hk hshort
  | ksGen =>
    obtain ⟨-, _, rfl, rfl⟩ := h
    obtain ⟨t', c', e⟩ := exists_runGen_eq s
    rw [e]
    exact .refl _
  | ksFeed b => obtain ⟨-, rfl⟩ := h; exact sameDifferences_feedArray b s.x
  | hxDnib => obtain ⟨_, -, rfl⟩ := h; exact .refl _
  | hxDchr => obtain ⟨-, rfl⟩ | ⟨_, -, ⟨-, rfl⟩ | ⟨-, rfl⟩⟩ := h <;> exact .refl _
  | hxDend => obtain ⟨-, rfl⟩ | ⟨-, rfl⟩ := h <;> exact .refl _

/-- Settles O26: an error leaves `X`, and so does every effect but `Feed`, which keeps the differences. -/
theorem keyDifferencesStayConstant : Obligations.KeyDifferencesStayConstant := by
  intro i s t hk h hopen hclose
  obtain ⟨code, rfl, -⟩ | ⟨code, rfl, -⟩ | hown := exec_cases h
  · exact fun _ _ => rfl
  · exact fun _ _ => rfl
  · exact sameDifferences_of_ownEffect hk hopen hclose hown

/-! ## The table of R202: no other status -/

section

variable {op : Opcode}

theorem canReturn_eNosess (h : isGated op = true ∨ op = .scClose) : canReturn op .eNosess = true := by
  obtain h | rfl := h
  · simp [canReturn, h]
  · rfl

theorem canReturn_of_gated (h : isGated op = true) :
    canReturn op .eKeylen = true ∧ canReturn op .eHex = true ∧ canReturn op .eFailed = true := by
  simp [canReturn, h]

theorem canReturn_scClose {st : Status} (h : st = .ok ∨ st = .eKeylen ∨ st = .eHex ∨ st = .eMode) :
    canReturn .scClose st = true := by
  obtain rfl | rfl | rfl | rfl := h <;> rfl

end

/-- The outcome of a session in progress (R162). -/
theorem closeStatus_legal {s : State} (hinv : BlockInv s) (hs : s.sess ≠ .idle) :
    closeStatus s = .ok ∨ closeStatus s = .eKeylen ∨ closeStatus s = .eHex ∨ closeStatus s = .eMode := by
  cases hsess : s.sess with
  | idle => exact absurd hsess hs
  | failed => rw [closeStatus_of_failed hsess]; exact hinv.err_legal
  | opened => rw [closeStatus_of_opened hsess]; split_ifs <;> simp

theorem canReturn_of_exec {i : Instr} {s t : State} {r : Response} (hinv : BlockInv s) (h : exec i s = .next t)
    (hr : t.responses = s.responses ++ [r]) : canReturn i.opcode r.status = true := by
  have last {st : Status} {bytes : List Byte} (ht : t.responses = s.responses ++ [⟨st, bytes⟩]) : r.status = st := by
    simp only [hr, List.append_cancel_left_eq, List.cons.injEq, and_true] at ht
    rw [ht]
  obtain ⟨code, rfl, hcode⟩ | ⟨code, rfl, -, hi, hcode⟩ | hown := exec_cases h
  · rw [last rfl]
    obtain ⟨-, rfl, hi⟩ | ⟨-, rfl, hi⟩ | ⟨c, rfl, -, rfl⟩ := hcode
    · exact canReturn_eNosess (hi.imp_right fun he => by rw [he]; rfl)
    · exact (canReturn_of_gated hi).2.2
    · rfl
  · rw [last rfl]
    obtain rfl | rfl | ⟨rfl, hop | hop⟩ := hcode
    · exact (canReturn_of_gated hi).1
    · exact (canReturn_of_gated hi).2.1
    · rw [hop]; rfl
    · rw [hop]; rfl
  · obtain hc | ⟨hop, rfl⟩ | ⟨d, rfl, rfl⟩ | ⟨rfl, hs, rfl⟩ := ownEffect_cases hown
    · obtain ⟨bytes, hbytes⟩ := hc.responses
      rw [last hbytes]; rfl
    · rw [last rfl]
      obtain hop | hop := hop <;> rw [hop] <;> rfl
    · rw [last rfl]; rfl
    · rw [last rfl]
      exact canReturn_scClose (closeStatus_legal hinv hs)

/-! ## The table of R202: every status it lists -/

/-- From some state of the invariant the command gives a response of the status. -/
def CanAnswer (i : Instr) (st : Status) : Prop := ∃ (s t : State) (bytes : List Byte), BlockInv s ∧
  exec i s = .next t ∧ t.responses = s.responses ++ [⟨st, bytes⟩]

/-- An OPEN session without a key byte. -/
def openedState (d : Direction) : State := { State.reset with sess := .opened, dir := d }

/-- An OPEN session with a complete key. -/
def readyState (d : Direction) : State := { openedState d with keycnt := 16 }

/-- An OPEN session with a complete key and one more key digit. -/
def pendingState (d : Direction) : State := { readyState d with kpend := true }

/-- A FAILED session. -/
def failedState : State := { State.reset with sess := .failed, err := .eMode }

theorem blockInv_openedState (d : Direction) : BlockInv (openedState d) := resetSatisfiesInvariant.opened d

theorem ready_readyState (d : Direction) : Ready (readyState d) := ⟨rfl, rfl, rfl⟩

theorem blockInv_readyState (d : Direction) : BlockInv (readyState d) :=
  blockInv_of_ready (ready_readyState d) rfl nofun

theorem blockInv_pendingState (d : Direction) : BlockInv (pendingState d) :=
  (blockInv_readyState d).holds rfl true false false 0 0 0

theorem blockInv_failedState : BlockInv failedState := resetSatisfiesInvariant.failed (.inr (.inr rfl))

section

variable {op : Opcode} {i : Instr} {s u : State} {st : Status} {bytes : List Byte}

theorem canAnswer_of_rejects (hinv : BlockInv s) (h : Rejects i s st) : CanAnswer i st := ⟨_, _, _, hinv, h, rfl⟩

theorem canAnswer_of_fails (hinv : BlockInv s) (h : Fails i s st) : CanAnswer i st := ⟨_, _, _, hinv, h, rfl⟩

theorem canAnswer_of_respond (hinv : BlockInv s) (h : exec i s = .next (respond st bytes u))
    (hu : u.responses = s.responses) : CanAnswer i st :=
  ⟨_, _, bytes, hinv, h, by rw [respond_responses, hu]⟩

/-- Some command of the opcode can answer with the status. -/
def OpcodeCanAnswer (op : Opcode) (st : Status) : Prop := ∃ i : Instr, i.opcode = op ∧ CanAnswer i st

theorem opcodeCanAnswer_eNosess (h : isGated op = true ∨ op = .scClose) : OpcodeCanAnswer op .eNosess := by
  obtain h | rfl := h
  · refine ⟨op.assemble 0, assemble_opcode op 0, canAnswer_of_rejects resetSatisfiesInvariant ?_⟩
    exact gated_rejects_of_idle (by rwa [assemble_opcode]) rfl
  · exact ⟨.scClose, rfl, canAnswer_of_rejects resetSatisfiesInvariant (exec_scClose_of_idle rfl)⟩

theorem opcodeCanAnswer_eFailed (h : isGated op = true) : OpcodeCanAnswer op .eFailed := by
  refine ⟨op.assemble 0, assemble_opcode op 0, canAnswer_of_rejects blockInv_failedState ?_⟩
  exact gated_rejects_of_failed (by rwa [assemble_opcode]) rfl

/-- In the direction an opcode requires, a data command finds its key missing or with a pending nibble. -/
theorem opcodeCanAnswer_data (h : isData op = true) : OpcodeCanAnswer op .eKeylen ∧ OpcodeCanAnswer op .eHex := by
  have hdata : isData (op.assemble 0).opcode = true := by rwa [assemble_opcode]
  have hdir (d : Direction) (hd : requiredDirection (op.assemble 0).opcode = some d) :
      (requiredDirection op).getD .enc = d := by
    rw [assemble_opcode] at hd
    rw [hd, Option.getD_some]
  obtain ⟨-, hshort⟩ := keyReadyCheckFails _ (openedState ((requiredDirection op).getD .enc)) hdata rfl hdir
  obtain ⟨hpend, -⟩ := keyReadyCheckFails _ (pendingState ((requiredDirection op).getD .enc)) hdata rfl hdir
  have hempty : (0 : BitVec 5) ≠ 16 := by decide
  exact ⟨⟨_, assemble_opcode op 0, canAnswer_of_fails (blockInv_openedState _) (hshort rfl hempty)⟩,
    ⟨_, assemble_opcode op 0, canAnswer_of_fails (blockInv_pendingState _) (hpend rfl)⟩⟩

theorem opcodeCanAnswer_eKeylen (h : isGated op = true ∨ op = .scClose) : OpcodeCanAnswer op .eKeylen := by
  cases op with
  | scByte | scEncu | scDech | ksGen | ksFeed => exact (opcodeCanAnswer_data rfl).1
  | scKeyhex =>
    exact ⟨.scKeyhex 0x30, rfl, canAnswer_of_fails (blockInv_pendingState .enc)
      (scKeyhex_fails_of_full (v := 0) rfl (by decide) rfl rfl)⟩
  | ksKeyb =>
    exact ⟨.ksKeyb 0, rfl, canAnswer_of_fails (blockInv_readyState .enc) (ksKeyb_fails_of_full rfl rfl rfl)⟩
  | scClose =>
    exact ⟨.scClose, rfl, canAnswer_of_respond (blockInv_openedState .enc) (exec_scClose_of_session (by decide)) rfl⟩
  | nop | scOpen | hxDnib | hxEnib | hxDchr | hxDend | hxEbyt => simp [isGated] at h

theorem opcodeCanAnswer_eHex (h : canReturn op .eHex = true) : OpcodeCanAnswer op .eHex := by
  cases op with
  | scByte | scEncu | scDech | ksGen | ksFeed => exact (opcodeCanAnswer_data rfl).2
  | scKeyhex =>
    exact ⟨.scKeyhex 0, rfl, canAnswer_of_fails (blockInv_openedState .enc)
      (scKeyhex_fails_of_undefined rfl (by decide))⟩
  | ksKeyb =>
    exact ⟨.ksKeyb 0, rfl, canAnswer_of_fails (blockInv_pendingState .enc) (ksKeyb_fails_of_pending rfl rfl)⟩
  | scClose =>
    exact ⟨.scClose, rfl, canAnswer_of_respond (blockInv_pendingState .enc) (exec_scClose_of_session (by decide)) rfl⟩
  | hxDnib =>
    exact ⟨.hxDnib 0, rfl, canAnswer_of_respond resetSatisfiesInvariant (exec_hxDnib_of_undefined (by decide)) rfl⟩
  | hxDchr =>
    exact ⟨.hxDchr 0, rfl, canAnswer_of_respond resetSatisfiesInvariant (exec_hxDchr_of_undefined (by decide)) rfl⟩
  | hxDend =>
    exact ⟨.hxDend, rfl, canAnswer_of_respond (resetSatisfiesInvariant.outside true 0 []) (exec_hxDend_odd rfl) rfl⟩
  | nop | scOpen | hxEnib | hxEbyt => cases h

theorem opcodeCanAnswer_eMode (h : canReturn op .eMode = true) : OpcodeCanAnswer op .eMode := by
  cases op with
  | scClose =>
    exact ⟨.scClose, rfl, canAnswer_of_respond blockInv_failedState (exec_scClose_of_session (by decide)) rfl⟩
  | scEncu =>
    exact ⟨.scEncu 0, rfl, canAnswer_of_fails (blockInv_openedState .dec) (fails_of_mode rfl rfl (by decide))⟩
  | scDech =>
    exact ⟨.scDech 0, rfl, canAnswer_of_fails (blockInv_openedState .enc) (fails_of_mode rfl rfl (by decide))⟩
  | nop | scOpen | scKeyhex | scByte | ksKeyb | ksGen | ksFeed | hxDnib | hxEnib | hxDchr | hxDend | hxEbyt =>
    cases h

theorem opcodeCanAnswer_ok (op : Opcode) : OpcodeCanAnswer op .ok := by
  have hreset := resetSatisfiesInvariant
  have hready := blockInv_readyState
  cases op with
  | nop => exact ⟨.nop, rfl, canAnswer_of_respond hreset (exec_nop _) rfl⟩
  | scOpen => exact ⟨.scOpen .enc, rfl, canAnswer_of_respond hreset (exec_scOpen _ _) rfl⟩
  | scClose => exact ⟨.scClose, rfl, canAnswer_of_respond (hready .enc) (exec_scClose_of_session (by decide)) rfl⟩
  | scKeyhex =>
    exact ⟨.scKeyhex 0x30, rfl, canAnswer_of_respond (blockInv_openedState .enc)
      (exec_scKeyhex_first (v := 0) rfl (by decide) rfl) rfl⟩
  | scByte =>
    exact ⟨.scByte 0, rfl, canAnswer_of_respond (hready .enc) (exec_scByte (ready_readyState _))
      (cipherStep_responses _ _)⟩
  | scEncu =>
    exact ⟨.scEncu 0, rfl, canAnswer_of_respond (hready .enc) (exec_scEncu (ready_readyState _) rfl rfl rfl)
      ((cipherStep_responses _ _).trans (cipherStep_responses _ _))⟩
  | scDech =>
    exact ⟨.scDech 0x30, rfl, canAnswer_of_respond (hready .dec)
      (exec_scDech_first (v := 0) (ready_readyState _) rfl (by decide) rfl) rfl⟩
  | ksKeyb =>
    exact ⟨.ksKeyb 0, rfl, canAnswer_of_respond (blockInv_openedState .enc)
      (exec_ksKeyb_of_room rfl rfl (by decide)) rfl⟩
  | ksGen =>
    exact ⟨.ksGen, rfl, canAnswer_of_respond (hready .enc) (exec_ksGen (ready_readyState _)) (runGen_responses _)⟩
  | ksFeed => exact ⟨.ksFeed 0, rfl, canAnswer_of_respond (hready .enc) (exec_ksFeed (ready_readyState _)) rfl⟩
  | hxDnib =>
    exact ⟨.hxDnib 0x30, rfl, canAnswer_of_respond hreset (exec_hxDnib_of_digit (v := 0) (by decide)) rfl⟩
  | hxEnib => exact ⟨.hxEnib 0, rfl, canAnswer_of_respond hreset (exec_hxEnib 0) rfl⟩
  | hxDchr =>
    exact ⟨.hxDchr 0x30, rfl, canAnswer_of_respond hreset (exec_hxDchr_first (v := 0) (by decide) rfl) rfl⟩
  | hxDend => exact ⟨.hxDend, rfl, canAnswer_of_respond hreset (exec_hxDend_even rfl) rfl⟩
  | hxEbyt => exact ⟨.hxEbyt 0, rfl, canAnswer_of_respond hreset (exec_hxEbyt 0) rfl⟩

theorem opcodeCanAnswer_of_canReturn (h : canReturn op st = true) (hst : st ≠ .eIllegal) : OpcodeCanAnswer op st := by
  have hlist (he : isGated op || op == .scClose) : isGated op = true ∨ op = .scClose := by simpa using he
  cases st with
  | ok => exact opcodeCanAnswer_ok op
  | eKeylen => exact opcodeCanAnswer_eKeylen (hlist h)
  | eHex => exact opcodeCanAnswer_eHex h
  | eIllegal => exact absurd rfl hst
  | eNosess => exact opcodeCanAnswer_eNosess (hlist h)
  | eFailed => exact opcodeCanAnswer_eFailed h
  | eMode => exact opcodeCanAnswer_eMode h

end

/-! ## The table of R202 -/

/-- Every operand class leaves the top bit of `MOD` reserved, so every opcode has an illegal word. -/
theorem exists_illegal_word (op : Opcode) : ∃ w, opcField w = op.bits ∧ decode w = .illegal .reservedBit := by
  refine ⟨op.bits ++ 0x80#8 ++ 0x0000#16, ?_⟩
  cases op <;> decide

theorem canReturn_eIllegal (op : Opcode) : canReturn op .eIllegal = true := by cases op <;> rfl

/-- Settles O16: a status of the table is returned by a command the host issues in a state that raises it, and the
response of a word is that of the command it decodes to, or `E_ILLEGAL`. -/
theorem statusTable : Obligations.StatusTable := by
  intro op st
  constructor
  · intro h
    by_cases hst : st = .eIllegal
    · obtain ⟨w, hw, hd⟩ := exists_illegal_word op
      refine ⟨{ State.reset with inbox := [.command w] }, _, w, [], _, resetSatisfiesInvariant.outside false 0 _, rfl,
        hw, step_of_illegal rfl hd, rfl, hst.symm⟩
    · obtain ⟨i, rfl, s, t, bytes, hinv, hexec, hresp⟩ := opcodeCanAnswer_of_canReturn h hst
      exact ⟨issue [i] s, issue [] t, encode i, [], _, hinv.outside s.hxpend s.hxhi _, rfl, opcField_encode i,
        step_issue hexec, hresp, rfl⟩
  · rintro ⟨s, t, w, rest, r, hinv, hs, hw, hstep, hr, rfl⟩
    cases hd : decode w with
    | illegal why =>
      rw [step_of_illegal hs hd, Host.Outcome.next.injEq] at hstep
      have hlast : r = ⟨.eIllegal, []⟩ := by simpa [← hstep, eq_comm] using hr
      rw [hlast]
      exact canReturn_eIllegal op
    | command i =>
      rw [step_of_command hs hd] at hstep
      have hop : i.opcode = op := by
        have hfields := opcField_encode i
        rw [← decode_eq_command_iff.1 hd, hw] at hfields
        have hsome := opcodeOf_bits op
        rw [hfields, opcodeOf_bits] at hsome
        exact Option.some.inj hsome
      rw [← hop]
      exact canReturn_of_exec (hinv.outside s.hxpend s.hxhi rest) hstep hr

end Sys2Proof.Machine

/-!
Proofs: runs of commands and the hex pseudo-commands (41_hex_byte_codec.md section 2, 30_encoding.md section 5). A run
is followed together with the responses it adds; the three commands that read a hex string digit by digit share one
lemma on what a run without an error says of the string.
-/

namespace Sys2Proof.Machine

/-! ## Runs and their responses -/

/-- The commands lead from the first state to the second and add these responses. -/
def Runs (is : List Instr) (s t : State) (rs : List Response) : Prop :=
  runInstrs is s = .next t ∧ t.responses = s.responses ++ rs

/-- Every response has the status OK. -/
def AllOk (rs : List Response) : Prop := ∀ r ∈ rs, r.status = .ok

section

variable {i : Instr} {is js : List Instr} {s t u : State} {r : Response} {rs rs' : List Response}

theorem Runs.nil (s : State) : Runs [] s s [] := ⟨rfl, (List.append_nil _).symm⟩

theorem Runs.cons (h : exec i s = .next u) (hr : u.responses = s.responses ++ [r]) (hrest : Runs is u t rs) :
    Runs (i :: is) s t (r :: rs) := by
  obtain ⟨hrun, hresp⟩ := hrest
  refine ⟨(runInstrs_cons h).trans hrun, ?_⟩
  rw [hresp, hr, List.append_assoc, List.singleton_append]

theorem Runs.single (h : exec i s = .next t) (hr : t.responses = s.responses ++ [r]) : Runs [i] s t [r] :=
  .cons h hr (.nil t)

theorem Runs.append (h : Runs is s u rs) (h' : Runs js u t rs') : Runs (is ++ js) s t (rs ++ rs') := by
  obtain ⟨hrun, hresp⟩ := h
  obtain ⟨hrun', hresp'⟩ := h'
  refine ⟨(runInstrs_append hrun).trans hrun', ?_⟩
  rw [hresp', hresp, List.append_assoc]

/-- Every list of commands runs to its end, with one response for each command (R200). -/
theorem exists_runs (is : List Instr) (s : State) : ∃ t rs, Runs is s t rs ∧ rs.length = is.length := by
  induction is generalizing s with
  | nil => exact ⟨s, [], .nil s, rfl⟩
  | cons i rest ih =>
    obtain ⟨u, r, hu, hr, -, -⟩ := exec_returns_one_status i s
    obtain ⟨t, rs, hrun, hlen⟩ := ih u
    exact ⟨t, r :: rs, .cons hu hr hrun, congrArg (· + 1) hlen⟩

theorem Runs.unique {t' : State} (h : Runs is s t rs) (h' : Runs is s t' rs') : t = t' ∧ rs = rs' := by
  obtain ⟨hrun, hresp⟩ := h
  obtain ⟨hrun', hresp'⟩ := h'
  obtain rfl : t = t' := Host.Outcome.next.inj (hrun.symm.trans hrun')
  exact ⟨rfl, List.append_cancel_left (hresp.symm.trans hresp')⟩

theorem Runs.eq_of_nil (h : Runs [] s t rs) : t = s ∧ rs = [] := h.unique (.nil s)

/-- The first command of a run and the run of the others. -/
theorem Runs.of_cons (h : Runs (i :: is) s t rs) : ∃ u r rs', exec i s = .next u ∧
    u.responses = s.responses ++ [r] ∧ rs = r :: rs' ∧ Runs is u t rs' := by
  obtain ⟨u, r, hu, hr, -, -⟩ := exec_returns_one_status i s
  obtain ⟨t', rs', hrest, -⟩ := exists_runs is u
  obtain ⟨rfl, rfl⟩ := h.unique (.cons hu hr hrest)
  exact ⟨u, r, rs', hu, hr, rfl, hrest⟩

/-- A run of two lists, cut between them. -/
theorem Runs.of_append (h : Runs (is ++ js) s t rs) :
    ∃ u rs₁ rs₂, rs = rs₁ ++ rs₂ ∧ Runs is s u rs₁ ∧ Runs js u t rs₂ := by
  induction is generalizing s rs with
  | nil => exact ⟨s, [], rs, rfl, .nil s, h⟩
  | cons i rest ih =>
    obtain ⟨v, r, rs', hv, hr, rfl, hrest⟩ := Runs.of_cons h
    obtain ⟨u, rs₁, rs₂, rfl, h₁, h₂⟩ := ih hrest
    exact ⟨u, r :: rs₁, rs₂, rfl, .cons hv hr h₁, h₂⟩

theorem AllOk.nil : AllOk [] := nofun

theorem allOk_cons : AllOk (r :: rs) ↔ r.status = .ok ∧ AllOk rs := List.forall_mem_cons

theorem allOk_append : AllOk (rs ++ rs') ↔ AllOk rs ∧ AllOk rs' := List.forall_mem_append

theorem outputBytes_cons : outputBytes (r :: rs) = r.bytes ++ outputBytes rs := List.flatMap_cons

theorem outputBytes_append : outputBytes (rs ++ rs') = outputBytes rs ++ outputBytes rs' := List.flatMap_append

end

/-! ## Nibbles and characters (R53, R100, R101) -/

theorem highNibble_joinNibbles (a b : Nibble) : highNibble (joinNibbles a b) = a := BitVec.extractLsb'_append_eq_left

theorem lowNibble_joinNibbles (a b : Nibble) : lowNibble (joinNibbles a b) = b := BitVec.extractLsb'_append_eq_right

theorem joinNibbles_nibbles (b : Byte) : joinNibbles (highNibble b) (lowNibble b) = b :=
  BitVec.extractLsb'_append_extractLsb' (w := 4) (len := 4)

/-- Settles O29: sixteen nibbles, evaluated. -/
theorem hexAlphabet : Obligations.HexAlphabet := by
  unfold Obligations.HexAlphabet
  decide

theorem hexVal_hexChr (n : Nibble) : hexVal ((hexChr n).setWidth 16) = some n := (hexAlphabet n).2

/-- The lower-case character of the same digit. -/
def lowerCase (h : Word) : Word := if 0x41 ≤ h.toNat ∧ h.toNat ≤ 0x46 then h + 0x20 else h

theorem lowerCase_toNat (h : Word) :
    (lowerCase h).toNat = if 0x41 ≤ h.toNat ∧ h.toNat ≤ 0x46 then h.toNat + 0x20 else h.toNat := by
  unfold lowerCase
  split_ifs with hupper
  · rw [BitVec.toNat_add]
    exact Nat.mod_eq_of_lt (show h.toNat + 0x20 < 2 ^ 16 by omega)
  · rfl

theorem hexChr_setWidth_toNat (v : Nibble) :
    ((hexChr v).setWidth 16).toNat = if v.toNat < 10 then 0x30 + v.toNat else 0x57 + v.toNat := by
  rw [BitVec.toNat_setWidth, ← (hexAlphabet v).1]
  exact Nat.mod_eq_of_lt (by omega)

/-- A digit written back is the digit in lower case: one case for each range of R100. -/
theorem hexChr_of_hexVal {h : Word} {v : Nibble} (hv : hexVal h = some v) : (hexChr v).setWidth 16 = lowerCase h := by
  apply BitVec.eq_of_toNat_eq
  rw [hexChr_setWidth_toNat, lowerCase_toNat]
  rw [hexDigitTable h] at hv
  split_ifs at hv with hdigit hupper hlower <;> obtain rfl := Option.some.inj hv <;> rw [BitVec.toNat_ofNat]
  · rw [if_pos (by omega), if_neg (by omega)]; omega
  · rw [if_neg (by omega), if_pos (by omega)]; omega
  · rw [if_neg (by omega), if_neg (by omega)]; omega

/-! ## The source's hex conversions -/

section

open Source

theorem hexToBytes_pair {h l : Word} {rest : List Word} {a b : Nibble} {bytes : List Byte} (ha : hexVal h = some a)
    (hb : hexVal l = some b) (hrest : hexToBytes rest = .value bytes) :
    hexToBytes (h :: l :: rest) = .value (joinNibbles a b :: bytes) := by
  simp [hexToBytes, ha, hb, hrest]

/-- The two digits and the rest of a hex string that is not empty. -/
theorem hexToBytes_pair_cases {h l : Word} {rest : List Word} {bytes : List Byte}
    (hv : hexToBytes (h :: l :: rest) = .value bytes) : ∃ a b bs, hexVal h = some a ∧ hexVal l = some b ∧
      hexToBytes rest = .value bs ∧ bytes = joinNibbles a b :: bs := by
  rw [hexToBytes] at hv
  split at hv
  next a b bs ha hb hrest => exact ⟨a, b, bs, ha, hb, hrest, (Result.value.inj hv).symm⟩
  next => cases hv

theorem hexToBytes_error {chars : List Word} {e : SourceError} (h : hexToBytes chars = .error e) : e = .invalidHex := by
  unfold hexToBytes at h
  split at h
  next => cases h
  next => exact (Result.error.inj h).symm
  next =>
    split at h
    next => cases h
    next => exact (Result.error.inj h).symm

/-- An even number of digits is a hex string, of half as many bytes. -/
theorem hexToBytes_of_digits : ∀ {chars : List Word}, chars.length % 2 = 0 → (∀ h ∈ chars, (hexVal h).isSome = true) →
    ∃ bytes, hexToBytes chars = .value bytes ∧ chars.length = 2 * bytes.length
  | [], _, _ => ⟨[], rfl, rfl⟩
  | [_], hlen, _ => by simp at hlen
  | h :: l :: rest, hlen, hdigits => by
    obtain ⟨hh, hl, hrest⟩ := List.forall_mem_cons.1 hdigits |>.imp_right List.forall_mem_cons.1
    obtain ⟨a, ha⟩ := Option.isSome_iff_exists.1 hh
    obtain ⟨b, hb⟩ := Option.isSome_iff_exists.1 hl
    rw [List.length_cons, List.length_cons] at hlen
    obtain ⟨bytes, hbytes, hcount⟩ := hexToBytes_of_digits (by omega) hrest
    exact ⟨_, hexToBytes_pair ha hb hbytes, by simp only [List.length_cons, hcount]; omega⟩

/-- Reading back what `bytesToHex` wrote. -/
theorem hexToBytes_bytesToHex (bytes : List Byte) :
    hexToBytes ((bytesToHex bytes).map (·.setWidth 16)) = .value bytes := by
  induction bytes with
  | nil => rfl
  | cons b bs ih =>
    have hpair := hexToBytes_pair (hexVal_hexChr (highNibble b)) (hexVal_hexChr (lowNibble b)) ih
    rwa [joinNibbles_nibbles] at hpair

theorem bytesToHex_cons (b : Byte) (bs : List Byte) : bytesToHex (b :: bs) = hexPair b ++ bytesToHex bs :=
  List.flatMap_cons

theorem bytesToHex_length (bytes : List Byte) : (bytesToHex bytes).length = 2 * bytes.length := by
  induction bytes with
  | nil => rfl
  | cons b bs ih =>
    rw [bytesToHex_cons, List.length_append, ih, List.length_cons, hexPair, List.length_cons, List.length_singleton]
    omega

/-- Writing back what `hexToBytes` read. -/
theorem bytesToHex_hexToBytes : ∀ {chars : List Word} {bytes : List Byte}, hexToBytes chars = .value bytes →
    (bytesToHex bytes).map (·.setWidth 16) = chars.map lowerCase
  | [], _, h => by obtain rfl := Result.value.inj h; rfl
  | [_], _, h => by cases h
  | h :: l :: rest, _, hv => by
    obtain ⟨a, b, bs, ha, hb, hrest, rfl⟩ := hexToBytes_pair_cases hv
    rw [bytesToHex_cons, hexPair, highNibble_joinNibbles, lowNibble_joinNibbles, List.map_append,
      bytesToHex_hexToBytes hrest]
    simp only [List.map_cons, List.map_nil, hexChr_of_hexVal ha, hexChr_of_hexVal hb, List.cons_append, List.nil_append]

end

/-! ## Reading a hex string digit by digit -/

/-- A command that reads one digit of a hex string: without an error it reads a digit, the first of a pair sets the
pending flag and the second clears it. `good n` is what the state keeps after `n` bytes. -/
structure ReadsDigits (cmd : Word → Instr) (pend : State → Bool) (good : Nat → State → Prop) : Prop where
  first : ∀ {n h s t bytes}, good n s → pend s = false → exec (cmd h) s = .next t →
    t.responses = s.responses ++ [⟨.ok, bytes⟩] → (hexVal h).isSome = true ∧ good n t ∧ pend t = true
  second : ∀ {n h s t bytes}, good n s → pend s = true → exec (cmd h) s = .next t →
    t.responses = s.responses ++ [⟨.ok, bytes⟩] → (hexVal h).isSome = true ∧ good (n + 1) t ∧ pend t = false

/-- When all commands return OK and no digit is pending at the end, the characters are a hex string. -/
theorem ReadsDigits.hexToBytes {cmd : Word → Instr} {pend : State → Bool} {good : Nat → State → Prop}
    (hcmd : ReadsDigits cmd pend good) : ∀ {chars : List Word} {n : Nat} {s t : State} {rs : List Response}, good n s →
      pend s = false → Runs (chars.map cmd) s t rs → AllOk rs → pend t = false →
      ∃ bytes, Source.hexToBytes chars = .value bytes ∧ good (n + bytes.length) t
  | [], n, s, t, rs, hs, _, hrun, _, _ => by
    obtain ⟨rfl, -⟩ := hrun.eq_of_nil
    exact ⟨[], rfl, hs⟩
  | [h], n, s, t, rs, hs, hp, hrun, hok, hend => by
    obtain ⟨u, ⟨st, bs⟩, rs', hu, hr, rfl, hrest⟩ := Runs.of_cons hrun
    obtain ⟨rfl, -⟩ := Runs.eq_of_nil hrest
    obtain ⟨rfl, -⟩ := allOk_cons.1 hok
    obtain ⟨-, -, hpend⟩ := hcmd.first hs hp hu hr
    rw [hpend] at hend
    cases hend
  | h :: l :: rest, n, s, t, rs, hs, hp, hrun, hok, hend => by
    obtain ⟨u, ⟨st, bs⟩, rs', hu, hr, rfl, hrest⟩ := Runs.of_cons hrun
    obtain ⟨v, ⟨st', bs'⟩, rs'', hv, hr', rfl, hrest'⟩ := Runs.of_cons hrest
    obtain ⟨rfl, hok'⟩ := allOk_cons.1 hok
    obtain ⟨rfl, hok''⟩ := allOk_cons.1 hok'
    obtain ⟨hh, hgood, hpend⟩ := hcmd.first hs hp hu hr
    obtain ⟨hl, hgood', hpend'⟩ := hcmd.second hgood hpend hv hr'
    obtain ⟨a, ha⟩ := Option.isSome_iff_exists.1 hh
    obtain ⟨b, hb⟩ := Option.isSome_iff_exists.1 hl
    obtain ⟨bytes, hbytes, hgood''⟩ := hcmd.hexToBytes hgood' hpend' hrest' hok'' hend
    refine ⟨_, hexToBytes_pair ha hb hbytes, ?_⟩
    rwa [List.length_cons, Nat.add_comm bytes.length, ← Nat.add_assoc]

/-! ## `HEXDEC` and `HEXENC` (R81, R107, R108) -/

/-- What two digits of `HX_DCHR` do. -/
theorem runs_hxDchr_pair {h l : Word} {a b : Nibble} {s : State} (ha : hexVal h = some a) (hb : hexVal l = some b)
    (hp : s.hxpend = false) : ∃ t, Runs [.hxDchr h, .hxDchr l] s t [⟨.ok, []⟩, ⟨.ok, [joinNibbles a b]⟩] ∧
      t.hxpend = false :=
  ⟨_, .cons (exec_hxDchr_first ha hp) rfl (.single (exec_hxDchr_second hb rfl) rfl), rfl⟩

theorem runs_hxDchr : ∀ {chars : List Word} {bytes : List Byte} {s : State}, Source.hexToBytes chars = .value bytes →
    s.hxpend = false →
    ∃ t rs, Runs (chars.map .hxDchr) s t rs ∧ t.hxpend = false ∧ AllOk rs ∧ outputBytes rs = bytes
  | [], _, s, hv, hp => by
    obtain rfl := Source.Result.value.inj hv
    exact ⟨s, [], .nil s, hp, .nil, rfl⟩
  | [_], _, _, hv, _ => by cases hv
  | h :: l :: rest, _, s, hv, hp => by
    obtain ⟨a, b, bs, ha, hb, hrest, rfl⟩ := hexToBytes_pair_cases hv
    obtain ⟨u, hu, hpu⟩ := runs_hxDchr_pair ha hb hp
    obtain ⟨t, rs, ht, hpt, hok, hout⟩ := runs_hxDchr hrest hpu
    refine ⟨t, _, hu.append ht, hpt, ?_, ?_⟩
    · exact allOk_cons.2 ⟨rfl, allOk_cons.2 ⟨rfl, hok⟩⟩
    · rw [outputBytes_append, hout]
      rfl

theorem runs_hexdec {chars : List Word} {bytes : List Byte} {s : State} (hv : Source.hexToBytes chars = .value bytes)
    (hp : s.hxpend = false) : ∃ t rs, Runs (hexdecCommands chars) s t rs ∧ AllOk rs ∧ outputBytes rs = bytes := by
  obtain ⟨t, rs, ht, hpt, hok, hout⟩ := runs_hxDchr hv hp
  refine ⟨_, _, ht.append (.single (exec_hxDend_even hpt) rfl), ?_, ?_⟩
  · exact allOk_append.2 ⟨hok, allOk_cons.2 ⟨rfl, .nil⟩⟩
  · rw [outputBytes_append, hout]
    exact List.append_nil _

theorem readsDigits_hxDchr : ReadsDigits .hxDchr State.hxpend fun _ _ => True := by
  have ok {s : State} {h : Word} {t : State} {bytes : List Byte} (hexec : exec (.hxDchr h) s = .next t)
      (hr : t.responses = s.responses ++ [⟨.ok, bytes⟩]) : (hexVal h).isSome = true ∧ t.hxpend = !s.hxpend := by
    cases hv : hexVal h with
    | none =>
      obtain rfl := Host.Outcome.next.inj ((exec_hxDchr_of_undefined hv).symm.trans hexec)
      simp at hr
    | some v =>
      cases hp : s.hxpend with
      | false =>
        obtain rfl := Host.Outcome.next.inj ((exec_hxDchr_first hv hp).symm.trans hexec)
        exact ⟨rfl, rfl⟩
      | true =>
        obtain rfl := Host.Outcome.next.inj ((exec_hxDchr_second hv hp).symm.trans hexec)
        exact ⟨rfl, rfl⟩
  refine ⟨fun _ hp hexec hr => ?_, fun _ hp hexec hr => ?_⟩
  · obtain ⟨hv, hpend⟩ := ok hexec hr
    exact ⟨hv, trivial, by rw [hpend, hp]; rfl⟩
  · obtain ⟨hv, hpend⟩ := ok hexec hr
    exact ⟨hv, trivial, by rw [hpend, hp]; rfl⟩

/-- `HEXDEC` returns OK throughout only for a hex string: `HX_DEND` reports a pending digit. -/
theorem hexToBytes_of_hexdec {chars : List Word} {s t : State} {rs : List Response} (hp : s.hxpend = false)
    (h : Runs (hexdecCommands chars) s t rs) (hok : AllOk rs) : ∃ bytes, Source.hexToBytes chars = .value bytes := by
  obtain ⟨u, rs₁, rs₂, rfl, hchars, hend⟩ := Runs.of_append h
  obtain ⟨v, r, rs₃, hexec, hr, rfl, -⟩ := Runs.of_cons hend
  obtain ⟨hok₁, hok₂⟩ := allOk_append.1 hok
  have hstatus := (allOk_cons.1 hok₂).1
  cases hpu : u.hxpend with
  | false =>
    obtain ⟨bytes, hbytes, -⟩ := readsDigits_hxDchr.hexToBytes (n := 0) trivial hp hchars hok₁ hpu
    exact ⟨bytes, hbytes⟩
  | true =>
    obtain rfl := Host.Outcome.next.inj ((exec_hxDend_odd hpu).symm.trans hexec)
    obtain rfl : r = ⟨.eHex, []⟩ := by simpa [eq_comm] using hr
    cases hstatus

theorem hexdecCommands_opcode {chars : List Word} {i : Instr} (h : i ∈ hexdecCommands chars) :
    i.opcode = .hxDchr ∨ i.opcode = .hxDend := by
  obtain hchar | hend := List.mem_append.1 h
  · obtain ⟨c, -, rfl⟩ := List.mem_map.1 hchar
    exact .inl rfl
  · rw [List.mem_singleton.1 hend]
    exact .inr rfl

theorem codec_ungated {i : Instr} (hi : isCodec i.opcode = true) : isGated i.opcode = false ∧ i ≠ .scClose := by
  cases i with
  | hxDnib | hxEnib | hxDchr | hxDend | hxEbyt => exact ⟨rfl, nofun⟩
  | nop | scOpen | scClose | scKeyhex | scByte | scEncu | scDech | ksKeyb | ksGen | ksFeed => cases hi

/-- A codec command completes or reports `E_HEX` (R231). -/
theorem codec_statuses : ∀ {is : List Instr} {s t : State} {rs : List Response}, (∀ i ∈ is, isCodec i.opcode = true) →
    Runs is s t rs → ∀ r ∈ rs, r.status = .ok ∨ r.status = .eHex
  | [], _, _, _, _, h => by obtain ⟨-, rfl⟩ := h.eq_of_nil; exact nofun
  | i :: rest, s, _, _, hcodec, h => by
    obtain ⟨u, r, rs', hexec, hr, rfl, hrest⟩ := Runs.of_cons h
    obtain ⟨hi, hcodec'⟩ := List.forall_mem_cons.1 hcodec
    refine List.forall_mem_cons.2 ⟨?_, codec_statuses hcodec' hrest⟩
    obtain ⟨hgate, hclose⟩ := codec_ungated hi
    obtain ⟨u', r', hexec', hr', hstatus⟩ := commandsOfTheResetState.2 i s hgate hclose
    obtain rfl := Host.Outcome.next.inj (hexec.symm.trans hexec')
    rw [hr, List.append_cancel_left_eq, List.cons.injEq] at hr'
    rw [hr'.1]
    exact hstatus.imp_right And.left

/-- Settles O35: a hex string is decoded pair by pair, and `HEXDEC` without an error is the run over a hex string. -/
theorem hexdecIsHexToBytes : Obligations.HexdecIsHexToBytes := by
  intro chars s hp
  cases hv : Source.hexToBytes chars with
  | value bytes =>
    obtain ⟨t, rs, ⟨hrun, hresp⟩, hok, hout⟩ := runs_hexdec hv hp
    refine ⟨t, rs, hrun, hresp, fun bytes' hb => ⟨hok, ?_⟩, nofun⟩
    rw [hout, Source.Result.value.inj hb]
  | error e =>
    obtain ⟨t, rs, hruns, -⟩ := exists_runs (hexdecCommands chars) s
    refine ⟨t, rs, hruns.1, hruns.2, nofun, fun e' he => ⟨hexToBytes_error (hv.trans he), ?_⟩⟩
    by_contra hnone
    have hcodec (i : Instr) (hi : i ∈ hexdecCommands chars) : isCodec i.opcode = true := by
      obtain hop | hop := hexdecCommands_opcode hi <;> rw [hop] <;> rfl
    have hok : AllOk rs := fun r hr =>
      (codec_statuses hcodec hruns r hr).resolve_right fun hhex => hnone ⟨r, hr, hhex⟩
    obtain ⟨bytes, hbytes⟩ := hexToBytes_of_hexdec hp hruns hok
    rw [hv] at hbytes
    cases hbytes

theorem runs_hexenc (bytes : List Byte) (s : State) : ∃ t rs, Runs (hexencCommands bytes) s t rs ∧
    t.hxpend = s.hxpend ∧ AllOk rs ∧ outputBytes rs = Source.bytesToHex bytes := by
  induction bytes generalizing s with
  | nil => exact ⟨s, [], .nil s, rfl, .nil, rfl⟩
  | cons b bs ih =>
    obtain ⟨t, rs, ht, hp, hok, hout⟩ := ih (respond .ok (hexPair b) s)
    refine ⟨t, _, .cons (exec_hxEbyt b) rfl ht, hp, allOk_cons.2 ⟨rfl, hok⟩, ?_⟩
    rw [outputBytes_cons, hout, bytesToHex_cons]

theorem bytesToHex_alphabet (bytes : List Byte) : ∀ ch ∈ Source.bytesToHex bytes, ∃ n, ch = hexChr n := by
  intro ch hch
  obtain ⟨b, -, hb⟩ := List.mem_flatMap.1 hch
  simp only [hexPair, List.mem_cons, List.not_mem_nil, or_false] at hb
  obtain rfl | rfl := hb
  · exact ⟨_, rfl⟩
  · exact ⟨_, rfl⟩

/-- Settles O36: each command puts out the two characters of its byte. -/
theorem hexencIsBytesToHex : Obligations.HexencIsBytesToHex := by
  intro bytes s
  obtain ⟨t, rs, ⟨hrun, hresp⟩, -, hok, hout⟩ := runs_hexenc bytes s
  refine ⟨t, rs, hrun, hresp, hok, hout, ?_, ?_⟩
  · rw [hout, bytesToHex_length]
  · rw [hout]
    exact bytesToHex_alphabet bytes

/-- Settles O37: the round trips of `hexToBytes` and `bytesToHex`, carried over to the commands. -/
theorem hexRoundTrip : Obligations.HexRoundTrip := by
  refine ⟨fun bytes s hp => ?_, fun chars s hp heven hdigits => ?_⟩
  · obtain ⟨t, rs, ⟨hrun, hresp⟩, hpt, hok, hout⟩ := runs_hexenc bytes s
    obtain ⟨u, rs', ⟨hrun', hresp'⟩, hok', hout'⟩ := runs_hexdec (hexToBytes_bytesToHex bytes) (hpt.trans hp)
    rw [← hout] at hrun'
    refine ⟨t, rs, u, rs', hrun, hresp, ?_, hrun', hresp', allOk_append.2 ⟨hok, hok'⟩, hout'⟩
    rw [hout, bytesToHex_length]
  · obtain ⟨bytes, hbytes, -⟩ := hexToBytes_of_digits heven hdigits
    obtain ⟨t, rs, ⟨hrun, hresp⟩, -, hout⟩ := runs_hexdec hbytes hp
    obtain ⟨u, rs', ⟨hrun', hresp'⟩, -, -, hout'⟩ := runs_hexenc (outputBytes rs) t
    refine ⟨t, rs, u, rs', hrun, hresp, hrun', hresp', ?_⟩
    rw [hout', hout]
    exact bytesToHex_hexToBytes hbytes

end Sys2Proof.Machine

/-!
Proofs: the keystream over several commands (42_keystream_engine.md, 10_state.md section 4). A session's keystream is a
function of `(X, T, c)` and of the bytes fed back, and loading a key gives the `(X, T, c)` of the packed key.
-/

namespace Sys2Proof.Machine

/-! ## `Feed` (R132) -/

theorem feedArray_toNat (u : Byte) (x : Vector Word 8) (y : Fin 8) :
    (feedArray u x)[y].toNat = x[y].toNat ^^^ (u.toNat * 257) := by
  have hsmall : (narrow (u.toNat * Config.kfeed)).toNat = u.toNat * 257 := by
    rw [narrow_toNat]
    exact Nat.mod_eq_of_lt (show u.toNat * 257 < 2 ^ 16 by omega)
  rw [Fin.getElem_fin, feedArray_getElem, ← narrow_kfeed, BitVec.toNat_xor, hsmall]
  rfl

theorem feedArray_twice (u : Byte) (x : Vector Word 8) : feedArray u (feedArray u x) = x := by
  ext i hi : 1
  rw [feedArray_getElem, feedArray_getElem, BitVec.xor_assoc, BitVec.xor_self, BitVec.xor_zero]

theorem feedArray_zero (x : Vector Word 8) : feedArray 0 x = x := by
  ext i hi : 1
  rw [feedArray_getElem]
  exact BitVec.xor_zero

theorem feed_twice (u : Byte) (s : State) : feed u (feed u s) = s := by
  rw [feed, feed_x, feedArray_twice]
  rfl

theorem feed_zero (s : State) : feed 0 s = s := by rw [feed, feedArray_zero]

theorem feed_respond (u : Byte) (st : Status) (bytes : List Byte) (s : State) :
    feed u (respond st bytes s) = respond st bytes (feed u s) := rfl

theorem respond_respond (st st' : Status) (bytes bytes' : List Byte) (s : State) :
    respond st' bytes' (respond st bytes s) =
      { s with responses := s.responses ++ [⟨st, bytes⟩, ⟨st', bytes'⟩] } := by
  rw [respond, respond_responses, List.append_assoc]
  rfl

/-- Settles O42: XORing a word twice with one value gives the word back. -/
theorem feedXorsEveryWord : Obligations.FeedXorsEveryWord := by
  refine ⟨fun u s => ⟨feedArray u s.x, rfl, feedArray_toNat u s.x⟩, fun b s hr => ⟨?_, ?_⟩⟩
  · have hr' : Ready (respond .ok [] (feed b s)) := hr
    rw [runInstrs_cons (exec_ksFeed hr), runInstrs_cons (exec_ksFeed hr'), feed_respond, feed_twice, respond_respond]
    rfl
  · rw [runInstrs_cons (exec_ksFeed hr), feed_zero]
    rfl

/-! ## One byte of the keystream (R136, R160) -/

/-- The keystream state of a session (R12). -/
def keystreamOf (s : State) : Source.KeystreamState := { x := s.x, t := s.t, c := s.c }

/-- The rounds of the next byte of a keystream state. -/
def genOf (k : Source.KeystreamState) : Rounds := gen k.x k.t k.c

/-- The keystream state after one byte with `f` fed back. -/
def nextKeystream (f : Byte) (k : Source.KeystreamState) : Source.KeystreamState :=
  { x := feedArray f k.x, t := (genOf k).t, c := (genOf k).c }

/-- The keystream state that a key begins with (R27). -/
def initialKeystream (key : List Byte) : Source.KeystreamState := { x := Source.packKey key, t := 0, c := 0 }

theorem pc1Loop_cons (d : Direction) (z : Byte) (zs : List Byte) (k : Source.KeystreamState) :
    Source.pc1Loop d (z :: zs) k = (z ^^^ mask (genOf k).q) ::
      Source.pc1Loop d zs (nextKeystream (Source.plaintextByte d z (z ^^^ mask (genOf k).q)) k) := rfl

/-- The rounds write `T` and `c` of the registers. -/
def drawKeystream (s : State) : State := setAccumulators (genOf (keystreamOf s)).t (genOf (keystreamOf s)).c s

section

variable {s : State}

theorem Ready.respond (h : Ready s) (st : Status) (bytes : List Byte) : Ready (respond st bytes s) := h

theorem Ready.setAccumulators (h : Ready s) (t c : Word) : Ready (setAccumulators t c s) := h

theorem Ready.draw (h : Ready s) : Ready (drawKeystream s) := h.setAccumulators _ _

theorem Ready.feed (h : Ready s) (f : Byte) : Ready (feed f s) := h

end

theorem keystreamOf_respond (st : Status) (bytes : List Byte) (s : State) :
    keystreamOf (respond st bytes s) = keystreamOf s := rfl

/-- Stated for any `T` and `c`, so that comparing the two records does not run the rounds. -/
theorem keystreamOf_feed_setAccumulators (f : Byte) (t c : Word) (s : State) :
    keystreamOf (feed f (setAccumulators t c s)) = { x := feedArray f s.x, t := t, c := c } := rfl

theorem keystreamOf_feed_draw (f : Byte) (s : State) :
    keystreamOf (feed f (drawKeystream s)) = nextKeystream f (keystreamOf s) :=
  keystreamOf_feed_setAccumulators f _ _ s

/-- A draw and a feed with a response each. -/
theorem keystreamOf_genFeed (f : Byte) (bytes : List Byte) (s : State) :
    keystreamOf (respond .ok [] (feed f (respond .ok bytes (drawKeystream s)))) = nextKeystream f (keystreamOf s) := by
  rw [keystreamOf_respond, feed_respond, keystreamOf_respond, keystreamOf_feed_draw]

theorem drawKeystream_responses (s : State) : (drawKeystream s).responses = s.responses :=
  setAccumulators_responses s _ _

theorem exec_ksGen_eq {s : State} (hr : Ready s) : exec .ksGen s = .next (respond .ok
    [highByte (genOf (keystreamOf s)).q, lowByte (genOf (keystreamOf s)).q, mask (genOf (keystreamOf s)).q]
    (drawKeystream s)) := exec_ksGen hr

theorem cipherStep_fst (z : Byte) (s : State) : (cipherStep z s).1 = z ^^^ mask (genOf (keystreamOf s)).q := by
  rw [cipherStep_eq]
  rfl

theorem cipherStep_snd (z : Byte) (s : State) : (cipherStep z s).2 =
    feed (Source.plaintextByte s.dir z (z ^^^ mask (genOf (keystreamOf s)).q)) (drawKeystream s) := by
  rw [cipherStep_eq]
  rfl

/-- A draw and a feed with a response each leave the registers that they leave with one response after both. -/
theorem feed_with_responses (f : Byte) (bytes out : List Byte) (s : State) :
    { respond .ok [] (feed f (respond .ok bytes s)) with responses := (respond .ok out (feed f s)).responses } =
      respond .ok out (feed f s) := rfl

/-- Settles O43: `SC_BYTE` is the draw of `KS_GEN` and the feed of `KS_FEED`, with one response in place of two. -/
theorem genThenFeedIsOneByte : Obligations.GenThenFeedIsOneByte := by
  intro z s hr
  refine ⟨_, _, _, highByte (genOf (keystreamOf s)).q, lowByte (genOf (keystreamOf s)).q,
    mask (genOf (keystreamOf s)).q, exec_scByte hr, ?_, exec_ksGen_eq hr, ?_, exec_ksFeed (hr.draw.respond _ _), ?_, ?_⟩
  · rw [respond_responses, cipherStep_fst, cipherStep_responses]
  · rw [respond_responses, drawKeystream_responses]
  · rw [respond_responses, feed_responses]
  · rw [cipherStep_fst, cipherStep_snd]
    exact feed_with_responses _ _ _ _

/-! ## The keystream as a function of `(X, T, c)` (R137) -/

/-- `V` and the new `T` of a round do not read `T` and `c`. -/
theorem round_v_t {x : Vector Word 8} {r r' : Rounds} (y : Fin 8) (hv : r.v = r'.v) :
    (round x r y).v = (round x r' y).v ∧ (round x r y).t = (round x r' y).t := by
  simp only [round, hv, and_self]

theorem roundsBefore_v (x : Vector Word 8) (t c t' c' : Word) (n : Fin 9) :
    (roundsBefore x t c n).v = (roundsBefore x t' c' n).v := by
  induction n using Fin.induction with
  | zero => rfl
  | succ y ih =>
    rw [Fin.val_succ, roundsBefore_succ, roundsBefore_succ]
    exact (round_v_t y ih).1

theorem gen_t_eq (x : Vector Word 8) (t c t' c' : Word) : (gen x t c).t = (gen x t' c').t := by
  rw [gen_eq_roundsBefore, gen_eq_roundsBefore]
  have hlast (t c : Word) : roundsBefore x t c 8 = round x (roundsBefore x t c 7) 7 := roundsBefore_succ x t c 7
  rw [hlast, hlast]
  exact (round_v_t 7 (roundsBefore_v x t c t' c' 7)).2

/-- The commands that draw one word of the keystream for each byte and feed the byte back. -/
def genFeedCommands (us : List Byte) : List Instr := us.flatMap fun u => [.ksGen, .ksFeed u]

/-- Their responses. -/
def genFeedResponses : List Byte → Source.KeystreamState → List Response
  | [], _ => []
  | u :: us, k => ⟨.ok, [highByte (genOf k).q, lowByte (genOf k).q, mask (genOf k).q]⟩ :: ⟨.ok, []⟩ ::
      genFeedResponses us (nextKeystream u k)

theorem genFeedResponses_length (us : List Byte) (k : Source.KeystreamState) :
    (genFeedResponses us k).length = 2 * us.length := by
  induction us generalizing k with
  | nil => rfl
  | cons u us ih =>
    simp only [genFeedResponses, List.length_cons, ih]
    omega

theorem genFeedResponses_allOk (us : List Byte) (k : Source.KeystreamState) : AllOk (genFeedResponses us k) := by
  induction us generalizing k with
  | nil => exact .nil
  | cons u us ih => exact allOk_cons.2 ⟨rfl, allOk_cons.2 ⟨rfl, ih _⟩⟩

theorem runs_genFeed (us : List Byte) {s : State} (hr : Ready s) :
    ∃ t, Runs (genFeedCommands us) s t (genFeedResponses us (keystreamOf s)) := by
  induction us generalizing s with
  | nil => exact ⟨s, .nil s⟩
  | cons u us ih =>
    obtain ⟨t, ht⟩ := ih ((((hr.draw.respond .ok _).feed u).respond .ok []))
    rw [keystreamOf_genFeed] at ht
    refine ⟨t, .cons (exec_ksGen_eq hr) ?_ (.cons (exec_ksFeed (hr.draw.respond _ _)) ?_ ht)⟩
    · rw [respond_responses, drawKeystream_responses]
    · rw [respond_responses, feed_responses]

/-! ## Loading a key (R27, R130) -/

/-- The session has these key bytes and nothing else: no pending nibble, no keystream drawn, no data byte pending. -/
structure KeyLoaded (d : Direction) (key : List Byte) (s : State) : Prop where
  sess : s.sess = .opened
  dir : s.dir = d
  kpend : s.kpend = false
  keycnt : s.keycnt.toNat = key.length
  bytes : ∀ k : Fin 16, keyByteAt s.x k = key.getD k 0
  accumulators : s.t = 0 ∧ s.c = 0
  noData : s.dpend = false ∧ s.wpend = false

section

variable {d : Direction} {key : List Byte} {s : State}

theorem KeyLoaded.respond (h : KeyLoaded d key s) (st : Status) (bytes : List Byte) :
    KeyLoaded d key (respond st bytes s) := { h with }

theorem keyLoaded_opened (d : Direction) (s : State) :
    KeyLoaded d [] { clearSession s with dir := d, sess := .opened } where
  sess := rfl
  dir := rfl
  kpend := rfl
  keycnt := rfl
  bytes := keyByteAt_zero
  accumulators := ⟨rfl, rfl⟩
  noData := ⟨rfl, rfl⟩

theorem KeyLoaded.keycnt_ne (h : KeyLoaded d key s) (hlen : key.length < 16) : s.keycnt ≠ 16 :=
  keycnt_ne_of_position (k := ⟨key.length, hlen⟩) h.keycnt

theorem KeyLoaded.keycnt_eq (h : KeyLoaded d key s) (hlen : key.length = 16) : s.keycnt = 16 :=
  BitVec.eq_of_toNat_eq (h.keycnt.trans hlen)

/-- `KeyWrite` appends a byte. -/
theorem KeyLoaded.keyWrite (h : KeyLoaded d key s) (hlen : key.length < 16) (b : Byte) :
    KeyLoaded d (key ++ [b]) (keyWrite b s) :=
  { h with
    keycnt := by
      have hle : s.keycnt.toNat ≤ 16 := by rw [h.keycnt]; omega
      rw [keyWrite_keycnt, (keycnt_add_one hle (h.keycnt_ne hlen)).2, h.keycnt, List.length_append,
        List.length_singleton]
    bytes := by
      intro k
      by_cases hk : k.val = key.length
      · rw [keyWrite_at b s k (h.keycnt.trans hk.symm), hk]
        simp
      · have hother : k ≠ ⟨key.length, hlen⟩ := fun he => hk (congrArg Fin.val he)
        rw [keyWrite_other b s ⟨key.length, hlen⟩ k h.keycnt hother, h.bytes]
        rcases Nat.lt_or_gt_of_ne hk with hlt | hgt
        · rw [List.getD_append _ _ _ _ hlt]
        · rw [List.getD_eq_default _ _ hgt.le, List.getD_eq_default]
          simpa using hgt }

theorem KeyLoaded.ready (h : KeyLoaded d key s) (hlen : key.length = 16) : Ready s :=
  ⟨h.sess, h.kpend, h.keycnt_eq hlen⟩

/-- `X` holds the key big-endian (R27, R51). -/
theorem KeyLoaded.x_eq (h : KeyLoaded d key s) : s.x = Source.packKey key := by
  ext i hi : 1
  have hhigh := h.bytes ⟨2 * i, by omega⟩
  have hlow := h.bytes ⟨2 * i + 1, by omega⟩
  have heven : 2 * i / 2 = i := by omega
  have hodd : (2 * i + 1) / 2 = i := by omega
  simp only [keyByteAt, heven, hodd, Nat.mul_mod_right, Nat.mul_add_mod, if_true, Nat.one_mod, one_ne_zero,
    if_false] at hhigh hlow
  rw [Source.packKey, Vector.getElem_ofFn, ← hhigh, ← hlow]
  exact (BitVec.extractLsb'_append_extractLsb' (w := 8) (len := 8)).symm

theorem KeyLoaded.keystream (h : KeyLoaded d key s) : keystreamOf s = initialKeystream key := by
  obtain ⟨ht, hc⟩ := h.accumulators
  rw [keystreamOf, h.x_eq, ht, hc, initialKeystream]

end

/-- The responses of commands that complete without a byte. -/
def silent (n : Nat) : List Response := List.replicate n ⟨.ok, []⟩

theorem silent_allOk (n : Nat) : AllOk (silent n) := fun r hr => by rw [List.eq_of_mem_replicate hr]

theorem silent_bytes (n : Nat) : outputBytes (silent n) = [] := by
  induction n with
  | zero => rfl
  | succ n ih => rw [silent, List.replicate_succ, outputBytes_cons]; exact ih

theorem silent_length (n : Nat) : (silent n).length = n := List.length_replicate

theorem runs_keyCommands {d : Direction} {key bytes : List Byte} {s : State} (h : KeyLoaded d key s)
    (hlen : key.length + bytes.length ≤ 16) :
    ∃ t, Runs (keyCommands bytes) s t (silent bytes.length) ∧ KeyLoaded d (key ++ bytes) t := by
  induction bytes generalizing key s with
  | nil => exact ⟨s, .nil s, by rwa [List.append_nil]⟩
  | cons b bs ih =>
    rw [List.length_cons] at hlen
    have hroom : key.length < 16 := by omega
    obtain ⟨t, ht, hkey⟩ := ih ((h.keyWrite hroom b).respond .ok [])
      (by rw [List.length_append, List.length_singleton]; omega)
    refine ⟨t, .cons (exec_ksKeyb_of_room h.sess h.kpend (h.keycnt_ne hroom)) rfl ht, ?_⟩
    rwa [List.append_assoc] at hkey

/-- Two digits of a key string load one key byte. -/
theorem runs_scKeyhex_pair {d : Direction} {key : List Byte} {s : State} {h l : Word} {a b : Nibble}
    (hkey : KeyLoaded d key s) (hlen : key.length < 16) (ha : hexVal h = some a) (hb : hexVal l = some b) :
    ∃ t, Runs [.scKeyhex h, .scKeyhex l] s t (silent 2) ∧ KeyLoaded d (key ++ [joinNibbles a b]) t := by
  have hne := hkey.keycnt_ne hlen
  exact ⟨_, .cons (exec_scKeyhex_first hkey.sess ha hkey.kpend) rfl
    (.single (exec_scKeyhex_second hkey.sess hb rfl hne) rfl),
    { hkey.keyWrite hlen (joinNibbles a b) with kpend := rfl }⟩

theorem runs_keyhexCommands {d : Direction} : ∀ {chars : List Word} {key bytes : List Byte} {s : State},
    KeyLoaded d key s → Source.hexToBytes chars = .value bytes → key.length + bytes.length ≤ 16 →
    ∃ t, Runs (keyhexCommands chars) s t (silent chars.length) ∧ KeyLoaded d (key ++ bytes) t
  | [], _, _, s, h, hv, _ => by
    obtain rfl := Source.Result.value.inj hv
    exact ⟨s, .nil s, by rwa [List.append_nil]⟩
  | [_], _, _, _, _, hv, _ => by cases hv
  | h :: l :: rest, key, _, s, hkey, hv, hlen => by
    obtain ⟨a, b, bs, ha, hb, hrest, rfl⟩ := hexToBytes_pair_cases hv
    rw [List.length_cons] at hlen
    obtain ⟨u, hu, hkey'⟩ := runs_scKeyhex_pair hkey (by omega) ha hb
    obtain ⟨t, ht, hkey''⟩ := runs_keyhexCommands hkey' hrest
      (by rw [List.length_append, List.length_singleton]; omega)
    refine ⟨t, hu.append ht, ?_⟩
    rwa [List.append_assoc] at hkey''

/-- `SC_OPEN` and a key of at most 16 bytes. -/
theorem runs_open_key (d : Direction) {key : List Byte} (s : State) (hlen : key.length ≤ 16) :
    ∃ t, Runs (.scOpen d :: keyCommands key) s t (silent (key.length + 1)) ∧ KeyLoaded d key t := by
  obtain ⟨t, ht, hkey⟩ := runs_keyCommands ((keyLoaded_opened d s).respond .ok []) (bytes := key)
    (by rw [List.length_nil]; omega)
  exact ⟨t, .cons (exec_scOpen d s) rfl ht, hkey⟩

/-- `SC_OPEN` and a key string of at most 16 bytes. -/
theorem runs_open_keyhex (d : Direction) {chars : List Word} {key : List Byte} (s : State)
    (hv : Source.hexToBytes chars = .value key) (hlen : key.length ≤ 16) :
    ∃ t, Runs (.scOpen d :: keyhexCommands chars) s t (silent (chars.length + 1)) ∧ KeyLoaded d key t := by
  obtain ⟨t, ht, hkey⟩ := runs_keyhexCommands ((keyLoaded_opened d s).respond .ok []) hv
    (by rw [List.length_nil]; omega)
  exact ⟨t, .cons (exec_scOpen d s) rfl ht, hkey⟩

theorem KeyLoaded.x_getElem {d : Direction} {key : List Byte} {s : State} (h : KeyLoaded d key s) (i : Fin 8) :
    s.x[i] = key.getD (2 * i.val) 0 ++ key.getD (2 * i.val + 1) 0 := by
  rw [h.x_eq]
  exact Vector.getElem_ofFn i.isLt

/-- Settles O45: both ways of loading the key end in the state that has exactly its bytes. -/
theorem keyLoadPacksBigEndian : Obligations.KeyLoadPacksBigEndian := by
  intro d key s hlen
  refine ⟨?_, fun chars hv => ?_⟩
  · obtain ⟨t, ht, h⟩ := runs_open_key d s hlen.le
    exact ⟨t, ht.1, h.ready hlen, h.dir, h.accumulators.1, h.accumulators.2, h.x_getElem⟩
  · obtain ⟨t, ht, h⟩ := runs_open_keyhex d s hv hlen.le
    exact ⟨t, ht.1, h.ready hlen, h.dir, h.accumulators.1, h.accumulators.2, h.x_getElem⟩

/-- Settles O44: both sessions draw the keystream of the same `(X, T, c)`, which a key fixes. -/
theorem keystreamDependsOnStateAndFeedback : Obligations.KeystreamDependsOnStateAndFeedback := by
  refine ⟨fun us s s' hr hr' hx ht hc => ?_, gen_t_eq, fun key us d d' s s' hlen => ?_⟩
  · have hsame : keystreamOf s' = keystreamOf s := by rw [keystreamOf, keystreamOf, hx, ht, hc]
    obtain ⟨t, hrun, hresp⟩ := runs_genFeed us hr
    obtain ⟨t', hrun', hresp'⟩ := runs_genFeed us hr'
    rw [hsame] at hresp'
    exact ⟨t, t', _, hrun, hrun', hresp, hresp', genFeedResponses_length us _⟩
  · have session (d : Direction) (s : State) : ∃ t, Runs (.scOpen d :: (keyCommands key ++ genFeedCommands us)) s t
        (silent (key.length + 1) ++ genFeedResponses us (initialKeystream key)) := by
      obtain ⟨u, hu, hkey⟩ := runs_open_key d s hlen.le
      obtain ⟨t, ht⟩ := runs_genFeed us (hkey.ready hlen)
      rw [hkey.keystream] at ht
      exact ⟨t, hu.append ht⟩
    obtain ⟨t, hrun, hresp⟩ := session d s
    obtain ⟨t', hrun', hresp'⟩ := session d' s'
    exact ⟨t, t', _, hrun, hrun', hresp, hresp', allOk_append.2 ⟨silent_allOk _, genFeedResponses_allOk us _⟩⟩

end Sys2Proof.Machine

/-!
Proofs: whole sessions (43_stream_cipher_executor.md sections 3 and 6, 60_exceptions.md section 2). A session's commands
complete until one of them fails it, the others are then turned away, and `SC_CLOSE` repeats the first failure.
-/

namespace Sys2Proof.Machine

/-! ## The first failure of a run (R208) -/

section

variable {rs rs' : List Response} {r : Response} {st : Status}

theorem firstFailure_cons_bad (h : r.status ≠ .ok) : firstFailure (r :: rs) = some r.status := by
  simp [firstFailure, h]

theorem firstFailure_cons_ok (h : r.status = .ok) : firstFailure (r :: rs) = firstFailure rs := by
  simp [firstFailure, h]

theorem firstFailure_append_of_allOk (h : AllOk rs) : firstFailure (rs ++ rs') = firstFailure rs' := by
  induction rs with
  | nil => rfl
  | cons r rs ih =>
    obtain ⟨hr, hrs⟩ := allOk_cons.1 h
    rw [List.cons_append, firstFailure_cons_ok hr, ih hrs]

theorem firstFailure_append_of_some (h : firstFailure rs = some st) : firstFailure (rs ++ rs') = some st := by
  induction rs with
  | nil => cases h
  | cons r rs ih =>
    by_cases hr : r.status = .ok
    · rw [firstFailure_cons_ok hr] at h
      rw [List.cons_append, firstFailure_cons_ok hr, ih h]
    · rw [firstFailure_cons_bad hr] at h
      rw [List.cons_append, firstFailure_cons_bad hr, h]

theorem not_allOk_of_firstFailure (h : firstFailure rs = some st) : ¬ AllOk rs := by
  intro hok
  have hnone := firstFailure_append_of_allOk (rs' := []) hok
  rw [List.append_nil, h] at hnone
  cases hnone

end

/-! ## A failed session (R205, R162) -/

/-- The responses of gated commands in a failed session. -/
def turnedAway (n : Nat) : List Response := List.replicate n ⟨.eFailed, []⟩

theorem turnedAway_statuses (n : Nat) : ∀ r ∈ turnedAway n, r.status = .eFailed := fun r hr => by
  rw [List.eq_of_mem_replicate hr]

theorem turnedAway_bytes (n : Nat) : outputBytes (turnedAway n) = [] := by
  induction n with
  | zero => rfl
  | succ n ih => rw [turnedAway, List.replicate_succ, outputBytes_cons]; exact ih

theorem turnedAway_length (n : Nat) : (turnedAway n).length = n := List.length_replicate

theorem runs_of_failed {is : List Instr} {s : State} (hs : s.sess = .failed) (hi : ∀ i ∈ is, isGated i.opcode = true) :
    ∃ t, Runs is s t (turnedAway is.length) ∧ t.sess = .failed ∧ t.err = s.err := by
  induction is generalizing s with
  | nil => exact ⟨s, .nil s, hs, rfl⟩
  | cons i rest ih =>
    obtain ⟨hgate, hrest⟩ := List.forall_mem_cons.1 hi
    obtain ⟨t, ht, hfailed, herr⟩ := ih (s := respond .eFailed [] s) hs hrest
    exact ⟨t, .cons (gated_rejects_of_failed hgate hs) rfl ht, hfailed, herr⟩

/-- The responses after the first failure of a session: turned away, and the failure again at `SC_CLOSE`. -/
def afterFailure (code : Status) (n : Nat) : List Response := turnedAway n ++ [⟨code, []⟩]

theorem afterFailure_bytes (code : Status) (n : Nat) : outputBytes (afterFailure code n) = [] := by
  rw [afterFailure, outputBytes_append, turnedAway_bytes]
  rfl

theorem afterFailure_length (code : Status) (n : Nat) : (afterFailure code n).length = n + 1 := by
  rw [afterFailure, List.length_append, turnedAway_length, List.length_singleton]

theorem runs_scClose {s : State} (hs : s.sess ≠ .idle) : ∃ t, Runs [.scClose] s t [⟨closeStatus s, []⟩] :=
  ⟨_, .single (exec_scClose_of_session hs) rfl⟩

/-- A command fails the session, the others are turned away, and `SC_CLOSE` reports the failure. -/
theorem runs_fail_then_close {i : Instr} {is : List Instr} {s : State} {code : Status} (h : Fails i s code)
    (hi : ∀ i ∈ is, isGated i.opcode = true) :
    ∃ t, Runs (i :: (is ++ [.scClose])) s t (⟨code, []⟩ :: afterFailure code is.length) := by
  obtain ⟨u, hu, hfailed, herr⟩ := runs_of_failed (s := failSession code s) rfl hi
  obtain ⟨t, ht⟩ := runs_scClose (s := u) (by rw [hfailed]; nofun)
  rw [closeStatus_of_failed hfailed, herr] at ht
  exact ⟨t, .cons h rfl (hu.append ht)⟩

/-! ## Closing an open session (R162) -/

section

variable {s : State}

theorem closeStatus_of_ready (h : Ready s) : closeStatus s = if s.dpend then .eHex else .ok := by
  obtain ⟨hs, hp, hk⟩ := h
  rw [closeStatus_of_opened hs, if_neg (ne_true_of_eq_false hp), if_neg (not_not_intro hk)]

theorem closeStatus_ok_of_ready (h : Ready s) (hd : s.dpend = false) : closeStatus s = .ok := by
  rw [closeStatus_of_ready h, if_neg (ne_true_of_eq_false hd)]

theorem closeStatus_of_short (hs : s.sess = .opened) (hp : s.kpend = false) (hk : s.keycnt ≠ 16) :
    closeStatus s = .eKeylen := by
  rw [closeStatus_of_opened hs, if_neg (ne_true_of_eq_false hp), if_pos hk]

theorem closeStatus_of_pending (hs : s.sess = .opened) (hp : s.kpend = true) : closeStatus s = .eHex := by
  rw [closeStatus_of_opened hs, if_pos hp]

/-- An open session closes with OK only when its key is complete and no digit is pending. -/
theorem ready_of_closeStatus (hs : s.sess = .opened) (h : closeStatus s = .ok) : Ready s ∧ s.dpend = false := by
  rw [closeStatus_of_opened hs] at h
  split_ifs at h with hp hk hd
  exact ⟨⟨hs, eq_false_of_ne_true hp, not_not.1 hk⟩, eq_false_of_ne_true hd⟩

theorem closeStatus_of_opened_cases (hs : s.sess = .opened) :
    closeStatus s = .ok ∨ closeStatus s = .eKeylen ∨ closeStatus s = .eHex := by
  rw [closeStatus_of_opened hs]
  split_ifs <;> simp

end

/-! ## An open session (R171, R204) -/

/-- The command runs the gate and passes its mode check, if it has one, in the direction. -/
def InSession (d : Direction) (i : Instr) : Prop :=
  isGated i.opcode = true ∧ ∀ d', requiredDirection i.opcode = some d' → d = d'

/-- The state after the two steps of `SC_ENCU`, and the bytes they put out. -/
theorem exec_scEncu_steps {h : Word} {s : State} (hr : Ready s) (hd : s.dir = .enc) : exec (.scEncu h) s =
    .next (respond .ok (hexPair (cipherStep (highByte h) s).1 ++
      hexPair (cipherStep (lowByte h) (cipherStep (highByte h) s).2).1)
      (cipherStep (lowByte h) (cipherStep (highByte h) s).2).2) := exec_scEncu hr hd rfl rfl

section

variable {d : Direction} {i : Instr} {s t : State}

/-- With the key ready and in its direction, a command with a mode check completes, or fails on its character. -/
theorem framed_outcome_of_ready (hr : Ready s) (hd : requiredDirection i.opcode = some s.dir) :
    (∃ t, exec i s = .next t ∧ Completes s t) ∨ Fails i s .eHex := by
  cases i with
  | scEncu c =>
    exact .inl ⟨_, exec_scEncu_steps hr (Option.some.inj hd).symm,
      completes_respond ((keepsSession_cipherStep _ s).trans (keepsSession_cipherStep _ _))⟩
  | scDech c =>
    cases hv : hexVal c with
    | none => exact .inr (scDech_fails_of_undefined hr (Option.some.inj hd).symm hv)
    | some v =>
      refine .inl ⟨_, exec_scDech_of_digit hr (Option.some.inj hd).symm hv, ?_⟩
      split_ifs
      · exact completes_pairCodeUnit _ (keepsSession_cipherStep _ { s with dpend := false })
      · exact completes_respond ⟨rfl, rfl, rfl⟩
  | nop | scOpen | scClose | scKeyhex | scByte | ksKeyb | ksGen | ksFeed | hxDnib | hxEnib | hxDchr | hxDend | hxEbyt =>
    cases hd

/-- A command of an open session does not fail it with `E_MODE` in the direction it requires. -/
theorem not_fails_eMode (hs : s.sess = .opened) (hd : ∀ d, requiredDirection i.opcode = some d → s.dir = d)
    (hi : i.opcode = .scEncu ∨ i.opcode = .scDech) : ¬ Fails i s .eMode := by
  intro hmode
  have hframed : requiredDirection i.opcode = some s.dir := by
    obtain hi | hi := hi <;> rw [hi] at hd ⊢ <;> exact congrArg some (hd _ rfl).symm
  have hdata : isData i.opcode = true := by obtain hi | hi := hi <;> rw [hi] <;> rfl
  have other {code : Status} (h : Fails i s code) (hne : code ≠ .eMode) : False :=
    hne (congrArg State.err (Host.Outcome.next.inj (h.symm.trans hmode)))
  obtain ⟨hpending, hshort⟩ := keyReadyCheckFails i s hdata hs hd
  cases hp : s.kpend with
  | true => exact other (hpending hp) (by decide)
  | false =>
    by_cases hk : s.keycnt = 16
    · obtain ⟨t, ht, hc⟩ | hhex := framed_outcome_of_ready ⟨hs, hp, hk⟩ hframed
      · obtain rfl := Host.Outcome.next.inj (ht.symm.trans hmode)
        have hopened := hc.sess.trans hs
        cases hopened
      · exact other hhex (by decide)
    · exact other (hshort hp hk) (by decide)

/-- A command of an open session completes, or fails the session with `E_KEYLEN` or `E_HEX`. -/
theorem inSession_outcome (hs : s.sess = .opened) (hi : InSession s.dir i) (h : exec i s = .next t) :
    Completes s t ∨ ∃ code, (code = .eKeylen ∨ code = .eHex) ∧ Fails i s code := by
  obtain ⟨hgate, hd⟩ := hi
  obtain ⟨code, -, ⟨hidle, -⟩ | ⟨hfailed, -⟩ | ⟨c, rfl, -⟩⟩ | ⟨code, rfl, -, -, hcode⟩ | hown := exec_cases h
  · rw [hs] at hidle; cases hidle
  · rw [hs] at hfailed; cases hfailed
  · cases hgate
  · obtain hcode | hcode | ⟨rfl, hframed⟩ := hcode
    · exact .inr ⟨code, .inl hcode, h⟩
    · exact .inr ⟨code, .inr hcode, h⟩
    · exact absurd h (not_fails_eMode hs hd hframed)
  · obtain hc | ⟨hop, -⟩ | ⟨d, rfl, -⟩ | ⟨rfl, -⟩ := ownEffect_cases hown
    · exact .inl hc
    · obtain hop | hop := hop <;> rw [hop] at hgate <;> cases hgate
    · cases hgate
    · cases hgate

theorem inSession_not_mem (hi : InSession d i) : i.opcode ∉ [.scOpen, .scClose] := by
  intro hmem
  simp only [List.mem_cons, List.not_mem_nil, or_false] at hmem
  obtain hop | hop := hmem <;> rw [InSession, hop] at hi <;> cases hi.1

theorem dir_of_inSession (hi : InSession d i) (h : exec i s = .next t) : t.dir = s.dir := by
  obtain ⟨-, -, -, hdir, -⟩ := registersWrittenOnlyByTheirCommands i s t h
  exact hdir (inSession_not_mem hi)

end

/-- A run of an open session: all commands completed, or the session failed with the first failure. -/
def SessionRun (t : State) (rs : List Response) : Prop := (t.sess = .opened ∧ AllOk rs) ∨
  (t.sess = .failed ∧ (t.err = .eKeylen ∨ t.err = .eHex) ∧ firstFailure rs = some t.err)

theorem runs_inSession {d : Direction} : ∀ {is : List Instr} {s t : State} {rs : List Response}, s.sess = .opened →
    s.dir = d → (∀ i ∈ is, InSession d i) → Runs is s t rs → SessionRun t rs
  | [], _, _, _, hs, _, _, h => by
    obtain ⟨rfl, rfl⟩ := h.eq_of_nil
    exact .inl ⟨hs, .nil⟩
  | i :: rest, s, t, _, hs, rfl, hi, h => by
    obtain ⟨u, r, rs', hexec, hr, rfl, hrest⟩ := Runs.of_cons h
    obtain ⟨hin, hin'⟩ := List.forall_mem_cons.1 hi
    obtain hc | ⟨code, hcode, hfails⟩ := inSession_outcome hs hin hexec
    · obtain ⟨bytes, hbytes⟩ := hc.responses
      obtain rfl : r = ⟨.ok, bytes⟩ := by simpa [hr] using hbytes
      obtain ⟨ht, hok⟩ | ⟨ht, herr, hfirst⟩ :=
        runs_inSession (hc.sess.trans hs) (dir_of_inSession hin hexec) hin' hrest
      · exact .inl ⟨ht, allOk_cons.2 ⟨rfl, hok⟩⟩
      · exact .inr ⟨ht, herr, (firstFailure_cons_ok rfl).trans hfirst⟩
    · obtain rfl := Host.Outcome.next.inj (hfails.symm.trans hexec)
      obtain rfl : r = ⟨code, []⟩ := by simpa [eq_comm] using hr
      obtain ⟨t', ht', hfailed, herr⟩ := runs_of_failed (s := failSession code s) rfl fun j hj => (hin' j hj).1
      obtain ⟨rfl, -⟩ := ht'.unique hrest
      have herr' : t'.err = code := herr
      have hbad : code ≠ .ok := by rintro rfl; simp at hcode
      exact .inr ⟨hfailed, by rwa [herr'], by rw [herr', firstFailure_cons_bad hbad]⟩

/-- The whole session: `SC_CLOSE` returns OK exactly when every command did, and else the first failure. -/
theorem runs_session {d : Direction} {is : List Instr} (s : State) (hi : ∀ i ∈ is, InSession d i) :
    ∃ t rs st, Runs (.scOpen d :: (is ++ [.scClose])) s t (rs ++ [⟨st, []⟩]) ∧
      (st = .ok → AllOk (rs ++ [⟨st, []⟩])) ∧
      (st ≠ .ok → (st = .eHex ∨ st = .eKeylen) ∧ firstFailure (rs ++ [⟨st, []⟩]) = some st) := by
  obtain ⟨u, rs, hu, -⟩ := exists_runs is (respond .ok [] { clearSession s with dir := d, sess := .opened })
  have hrun := runs_inSession rfl rfl hi hu
  have hsess : u.sess ≠ .idle := by obtain ⟨hs, -⟩ | ⟨hs, -⟩ := hrun <;> rw [hs] <;> nofun
  obtain ⟨t, ht⟩ := runs_scClose hsess
  refine ⟨t, ⟨.ok, []⟩ :: rs, closeStatus u, .cons (exec_scOpen d s) rfl (hu.append ht), fun hst => ?_, fun hst => ?_⟩
  · obtain ⟨-, hok⟩ | ⟨hs, herr, -⟩ := hrun
    · exact allOk_append.2 ⟨allOk_cons.2 ⟨rfl, hok⟩, allOk_cons.2 ⟨hst, .nil⟩⟩
    · rw [closeStatus_of_failed hs] at hst
      simp [hst] at herr
  · rw [List.cons_append, firstFailure_cons_ok rfl]
    obtain ⟨hs, hok⟩ | ⟨hs, herr, hfirst⟩ := hrun
    · refine ⟨((closeStatus_of_opened_cases hs).resolve_left hst).symm, ?_⟩
      rw [firstFailure_append_of_allOk hok, firstFailure_cons_bad hst]
    · rw [closeStatus_of_failed hs]
      exact ⟨herr.symm, firstFailure_append_of_some hfirst⟩

end Sys2Proof.Machine

/-!
Proofs: key strings by their length (43_stream_cipher_executor.md section 3), and the step of R160 as the data commands
use it.
-/

namespace Sys2Proof.Machine

/-! ## Key strings by their length (R163) -/

/-- A 33rd digit is latched, and it is pending at `SC_CLOSE`. -/
theorem runs_scKeyhex_odd {d : Direction} {key : List Byte} {s : State} {h : Word} (hkey : KeyLoaded d key s)
    (hh : (hexVal h).isSome = true) : ∃ t, Runs [.scKeyhex h] s t (silent 1) ∧ t.sess = .opened ∧ t.kpend = true ∧
      t.keycnt = s.keycnt := by
  obtain ⟨v, hv⟩ := Option.isSome_iff_exists.1 hh
  exact ⟨_, .single (exec_scKeyhex_first hkey.sess hv hkey.kpend) rfl, hkey.sess, rfl, rfl⟩

/-- The status of `SC_CLOSE` after a key alone. -/
theorem KeyLoaded.closeStatus {d : Direction} {key : List Byte} {s : State} (h : KeyLoaded d key s)
    (hlen : key.length ≤ 16) : closeStatus s = if key.length = 16 then .ok else .eKeylen := by
  split_ifs with hfull
  · exact closeStatus_ok_of_ready (h.ready hfull) h.noData.1
  · exact closeStatus_of_short h.sess h.kpend (h.keycnt_ne (by omega))

theorem silent_append (m n : Nat) : silent m ++ silent n = silent (m + n) := List.replicate_append_replicate

/-- The status of `SC_CLOSE` after a key string of at most 33 digits. -/
def keyStringStatus (n : Nat) : Status := if n % 2 = 1 then .eHex else if n = 32 then .ok else .eKeylen

theorem runs_keyString_even (d : Direction) {chars : List Word} (s : State)
    (hdigits : ∀ h ∈ chars, (hexVal h).isSome = true) (heven : chars.length % 2 = 0) (hlen : chars.length ≤ 32) :
    ∃ t key, Runs (.scOpen d :: keyhexCommands chars) s t (silent (chars.length + 1)) ∧ KeyLoaded d key t ∧
      chars.length = 2 * key.length := by
  obtain ⟨key, hkey, hcount⟩ := hexToBytes_of_digits heven hdigits
  obtain ⟨t, ht, hloaded⟩ := runs_open_keyhex d s hkey (by omega)
  exact ⟨t, key, ht, hloaded, hcount⟩

theorem runs_keyString_short (d : Direction) {chars : List Word} (s : State)
    (hdigits : ∀ h ∈ chars, (hexVal h).isSome = true) (hlen : chars.length ≤ 33) :
    ∃ t, Runs (.scOpen d :: (keyhexCommands chars ++ [.scClose])) s t
      (silent (chars.length + 1) ++ [⟨keyStringStatus chars.length, []⟩]) := by
  obtain heven | hodd := Nat.mod_two_eq_zero_or_one chars.length
  · obtain ⟨u, key, hu, hkey, hcount⟩ := runs_keyString_even d s hdigits heven (by omega)
    obtain ⟨t, ht⟩ := runs_scClose (s := u) (by rw [hkey.sess]; nofun)
    have hstatus : closeStatus u = keyStringStatus chars.length := by
      have hchars : keyStringStatus chars.length = if chars.length = 32 then .ok else .eKeylen := if_neg (by omega)
      rw [hkey.closeStatus (by omega), hchars]
      exact if_congr (by omega) rfl rfl
    rw [hstatus] at ht
    exact ⟨t, hu.append ht⟩
  · obtain rfl | ⟨init, last, rfl⟩ := List.eq_nil_or_concat' chars
    · cases hodd
    · rw [List.length_append, List.length_singleton] at hodd hlen ⊢
      obtain ⟨hinit, hlast⟩ := List.forall_mem_append.1 hdigits
      obtain ⟨u, key, hu, hkey, -⟩ := runs_keyString_even d s hinit (by omega) (by omega)
      obtain ⟨v, hv, hsess, hpend, -⟩ := runs_scKeyhex_odd hkey (hlast last (List.mem_singleton_self last))
      obtain ⟨t, ht⟩ := runs_scClose (s := v) (by rw [hsess]; nofun)
      have hrun := (hu.append hv).append ht
      rw [closeStatus_of_pending hsess hpend, silent_append] at hrun
      rw [keyStringStatus, if_pos hodd]
      refine ⟨t, ?_⟩
      simpa [keyhexCommands] using hrun

/-- After 33 digits the next one fails the session. -/
theorem runs_keyString_long (d : Direction) {first rest : List Word} {h l : Word} (s : State)
    (hdigits : ∀ c ∈ first ++ h :: l :: rest, (hexVal c).isSome = true) (hlen : first.length = 32) :
    ∃ t, Runs (.scOpen d :: (keyhexCommands (first ++ h :: l :: rest) ++ [.scClose])) s t
      (silent 34 ++ (⟨.eKeylen, []⟩ :: turnedAway rest.length) ++ [⟨.eKeylen, []⟩]) := by
  obtain ⟨hfirst, hrest⟩ := List.forall_mem_append.1 hdigits
  obtain ⟨u, key, hu, hkey, hcount⟩ := runs_keyString_even d s hfirst (by omega) (by omega)
  obtain ⟨v, hv, hsess, hpend, hkeycnt⟩ := runs_scKeyhex_odd hkey (hrest h (by simp))
  obtain ⟨b, hb⟩ := Option.isSome_iff_exists.1 (hrest l (by simp))
  have hfails : Fails (.scKeyhex l) v .eKeylen :=
    scKeyhex_fails_of_full hsess hb hpend (hkeycnt.trans (hkey.keycnt_eq (by omega)))
  obtain ⟨t, ht⟩ := runs_fail_then_close hfails (is := keyhexCommands rest) (List.forall_mem_map.2 fun _ _ => rfl)
  have hrun := (hu.append hv).append ht
  rw [silent_append, hlen] at hrun
  refine ⟨t, ?_⟩
  simpa [keyhexCommands, afterFailure] using hrun

/-- A key string of 34 characters or more is the 32 that fill the key and two more. -/
theorem exists_long_split {chars : List Word} (h : 34 ≤ chars.length) :
    ∃ first a b rest, chars = first ++ a :: b :: rest ∧ first.length = 32 := by
  have hdrop : (chars.drop 32).length = chars.length - 32 := List.length_drop
  match hrest : chars.drop 32 with
  | [] => rw [hrest, List.length_nil] at hdrop; omega
  | [_] => rw [hrest, List.length_singleton] at hdrop; omega
  | a :: b :: rest =>
    refine ⟨chars.take 32, a, b, rest, ?_, List.length_take_of_le (by omega)⟩
    rw [← hrest, List.take_append_drop]

/-- Settles O50: up to 33 digits are loaded or latched, and the 34th fails the session. -/
theorem keyStringLengthOutcome : Obligations.KeyStringLengthOutcome := by
  intro d chars s hdigits
  obtain hshort | hlong := Nat.lt_or_ge chars.length 34
  · obtain ⟨t, hrun, hresp⟩ := runs_keyString_short d s hdigits (by omega)
    exact ⟨t, silent (chars.length + 1), keyStringStatus chars.length, hrun, hresp, silent_length _,
      fun _ => ⟨silent_allOk _, rfl⟩, fun hlong => absurd hlong (by omega)⟩
  · obtain ⟨first, a, b, rest, rfl, hfirst⟩ := exists_long_split hlong
    obtain ⟨t, hrun, hresp⟩ := runs_keyString_long d s hdigits hfirst
    refine ⟨t, _, .eKeylen, hrun, hresp, ?_, fun hshort => absurd hshort (by omega), fun _ => ⟨?_, ?_, ?_, rfl⟩⟩
    · simp only [List.length_append, List.length_cons, silent_length, turnedAway_length, hfirst]
      omega
    · rw [List.take_left' (silent_length 34)]
      exact silent_allOk 34
    · rw [List.getElem?_append_right (silent_length 34).le, silent_length]
      rfl
    · have hdrop : (silent 34 ++ ⟨.eKeylen, []⟩ :: turnedAway rest.length).drop 35 = turnedAway rest.length := by
        rw [List.append_cons, List.drop_left' (by rw [List.length_append, silent_length]; rfl)]
      rw [hdrop]
      exact turnedAway_statuses _

/-! ## The bytes of a `pc1` call (R160, R168) -/

/-- The responses to the bytes of a `pc1` call. -/
def byteResponses (out : List Byte) : List Response := out.map fun b => ⟨.ok, [b]⟩

theorem byteResponses_allOk (out : List Byte) : AllOk (byteResponses out) := List.forall_mem_map.2 fun _ _ => rfl

theorem byteResponses_bytes (out : List Byte) : outputBytes (byteResponses out) = out := by
  rw [outputBytes, byteResponses, List.flatMap_map]
  exact List.flatMap_singleton' out

theorem pc1Loop_length (d : Direction) (z : List Byte) (k : Source.KeystreamState) :
    (Source.pc1Loop d z k).length = z.length := by
  induction z generalizing k with
  | nil => rfl
  | cons b bs ih => rw [pc1Loop_cons, List.length_cons, ih, List.length_cons]

/-- A step keeps the direction and what waits of the data besides (R160). -/
theorem cipherStep_keeps (z : Byte) (s : State) : (cipherStep z s).2.dir = s.dir ∧
    (cipherStep z s).2.dpend = s.dpend ∧ (cipherStep z s).2.whi = s.whi := by
  obtain ⟨f, t, c, e⟩ := exists_cipherStep_eq z s
  rw [e]
  exact ⟨rfl, rfl, rfl⟩

theorem cipherStep_keystream (z : Byte) (s : State) : keystreamOf (cipherStep z s).2 =
    nextKeystream (Source.plaintextByte s.dir z (z ^^^ mask (genOf (keystreamOf s)).q)) (keystreamOf s) := by
  rw [cipherStep_snd, keystreamOf_feed_draw]

/-- One step of R160: the byte it puts out and the state it leaves. -/
structure CipherSteps (z : Byte) (s : State) (u : Byte) (s' : State) : Prop where
  eq : cipherStep z s = (u, s')
  out : u = z ^^^ mask (genOf (keystreamOf s)).q
  keystream : keystreamOf s' = nextKeystream (Source.plaintextByte s.dir z u) (keystreamOf s)
  ready : Ready s → Ready s'
  responses : s'.responses = s.responses
  dir : s'.dir = s.dir
  dpend : s'.dpend = s.dpend
  wpend : s'.wpend = s.wpend
  whi : s'.whi = s.whi

theorem exists_cipherSteps (z : Byte) (s : State) : ∃ u s', CipherSteps z s u s' := by
  obtain ⟨hdir, hdpend, hwhi⟩ := cipherStep_keeps z s
  refine ⟨(cipherStep z s).1, (cipherStep z s).2, rfl, cipherStep_fst z s, ?_, (keepsReady_cipherStep z s).ready,
    cipherStep_responses z s, hdir, hdpend, cipherStep_wpend z s, hwhi⟩
  rw [cipherStep_fst]
  exact cipherStep_keystream z s

theorem runs_scByte (z : List Byte) {s : State} (hr : Ready s) :
    ∃ t, Runs (z.map .scByte) s t (byteResponses (Source.pc1Loop s.dir z (keystreamOf s))) ∧ Ready t ∧
      t.dpend = s.dpend := by
  induction z generalizing s with
  | nil => exact ⟨s, .nil s, hr, rfl⟩
  | cons b bs ih =>
    obtain ⟨u, v, hstep⟩ := exists_cipherSteps b s
    have hexec := exec_scByte (b := b) hr
    rw [hstep.eq] at hexec
    obtain ⟨t, ht, hrt, hdt⟩ := ih ((hstep.ready hr).respond .ok [u])
    rw [respond_dir, hstep.dir, keystreamOf_respond, hstep.keystream] at ht
    rw [respond_dpend, hstep.dpend] at hdt
    refine ⟨t, ?_, hrt, hdt⟩
    rw [pc1Loop_cons, ← hstep.out]
    exact .cons hexec (by rw [respond_responses, hstep.responses]) ht

end Sys2Proof.Machine

/-!
Proofs: the sequences that stand for the source's functions (43_stream_cipher_executor.md section 6). Each sequence is
cut into its key, its data and `SC_CLOSE`; the data part is followed with the bytes that the source's loop puts out.
-/

namespace Sys2Proof.Machine

/-! ## The `pc1` sequence (R168) -/

theorem pc1_of_key (d : Direction) (z : List Byte) {key : List Byte} (hlen : key.length = 16) :
    Source.pc1 z key d = .value (Source.pc1Loop d z (initialKeystream key)) := if_pos hlen

theorem pc1_of_length_ne (d : Direction) (z : List Byte) {key : List Byte} (hlen : key.length ≠ 16) :
    Source.pc1 z key d = .error .keyLength := if_neg hlen

theorem runs_pc1 (d : Direction) (z : List Byte) {key : List Byte} (s : State) (hlen : key.length = 16) :
    ∃ t, Runs (pc1Commands d key z) s t (silent (key.length + 1) ++
      (byteResponses (Source.pc1Loop d z (initialKeystream key)) ++ [⟨.ok, []⟩])) := by
  obtain ⟨u, hu, hkey⟩ := runs_open_key d s hlen.le
  obtain ⟨v, hv, hr, hd⟩ := runs_scByte z (hkey.ready hlen)
  obtain ⟨t, ht⟩ := runs_scClose (s := v) (by rw [hr.1]; nofun)
  rw [hkey.dir, hkey.keystream] at hv
  rw [closeStatus_ok_of_ready hr (hd.trans hkey.noData.1)] at ht
  exact ⟨t, hu.append (hv.append ht)⟩

theorem sequence_allOk (n : Nat) (out : List Byte) : AllOk (silent n ++ (byteResponses out ++ [⟨.ok, []⟩])) :=
  allOk_append.2 ⟨silent_allOk n, allOk_append.2 ⟨byteResponses_allOk out, allOk_cons.2 ⟨rfl, .nil⟩⟩⟩

theorem sequence_bytes (n : Nat) (out : List Byte) :
    outputBytes (silent n ++ (byteResponses out ++ [⟨.ok, []⟩])) = out := by
  rw [outputBytes_append, outputBytes_append, silent_bytes, byteResponses_bytes]
  exact List.append_nil out

/-- With a key too short the first data command fails, or `SC_CLOSE` reports the key. -/
theorem runs_pc1_short (d : Direction) (z : List Byte) {key : List Byte} (s : State) (hlen : key.length < 16) :
    ∃ t tail, Runs (pc1Commands d key z) s t (silent (key.length + 1) ++ ⟨.eKeylen, []⟩ :: tail) ∧
      outputBytes tail = [] ∧ tail.length = z.length := by
  obtain ⟨u, hu, hkey⟩ := runs_open_key d s hlen.le
  cases z with
  | nil =>
    obtain ⟨t, ht⟩ := runs_scClose (s := u) (by rw [hkey.sess]; nofun)
    rw [closeStatus_of_short hkey.sess hkey.kpend (hkey.keycnt_ne hlen)] at ht
    exact ⟨t, [], hu.append ht, rfl, rfl⟩
  | cons b bs =>
    have hfails : Fails (.scByte b) u .eKeylen := fails_of_short rfl hkey.sess hkey.kpend (hkey.keycnt_ne hlen)
    obtain ⟨t, ht⟩ := runs_fail_then_close hfails (is := bs.map .scByte) (List.forall_mem_map.2 fun _ _ => rfl)
    have hrun := hu.append ht
    refine ⟨t, afterFailure .eKeylen (bs.map Instr.scByte).length, hrun, afterFailure_bytes _ _, ?_⟩
    rw [afterFailure_length, List.length_map, List.length_cons]

/-- A key of 17 bytes or more is the 16 that fill it and one more. -/
theorem exists_key_split {key : List Byte} (h : 16 < key.length) :
    ∃ first b rest, key = first ++ b :: rest ∧ first.length = 16 :=
  ⟨key.take 16, key[16], key.drop 17, by rw [← List.drop_eq_getElem_cons h, List.take_append_drop],
    List.length_take_of_le h.le⟩

/-- With a key too long the 17th key byte fails. -/
theorem runs_pc1_long (d : Direction) (z : List Byte) {first rest : List Byte} (b : Byte) (s : State)
    (hfirst : first.length = 16) : ∃ t, Runs (pc1Commands d (first ++ b :: rest) z) s t
      (silent 17 ++ ⟨.eKeylen, []⟩ :: afterFailure .eKeylen (rest.length + z.length)) := by
  obtain ⟨u, hu, hkey⟩ := runs_open_key d s hfirst.le
  have hfails : Fails (.ksKeyb b) u .eKeylen := ksKeyb_fails_of_full hkey.sess hkey.kpend (hkey.keycnt_eq hfirst)
  obtain ⟨t, ht⟩ := runs_fail_then_close hfails (is := keyCommands rest ++ z.map .scByte)
    (List.forall_mem_append.2 ⟨List.forall_mem_map.2 fun _ _ => rfl, List.forall_mem_map.2 fun _ _ => rfl⟩)
  have hrun := hu.append ht
  rw [hfirst] at hrun
  refine ⟨t, ?_⟩
  simpa [pc1Commands, keyCommands] using hrun

section

variable {m : Nat} {st : Status} {tail : List Response}

theorem take_silent : (silent m ++ ⟨st, []⟩ :: tail).take m = silent m := List.take_left' (silent_length m)

theorem status_after_silent : ((silent m ++ ⟨st, []⟩ :: tail)[m]?).map Response.status = some st := by
  rw [List.getElem?_append_right (silent_length m).le, silent_length, Nat.sub_self]
  rfl

theorem bytes_of_failure (h : outputBytes tail = []) : outputBytes (silent m ++ ⟨st, []⟩ :: tail) = [] := by
  rw [outputBytes_append, silent_bytes, outputBytes_cons, h]
  rfl

end

/-- Settles O54: by the length of the key. -/
theorem commandSequenceIsPc1 : Obligations.CommandSequenceIsPc1 := by
  intro d key z s
  obtain hlt | heq | hgt := Nat.lt_trichotomy key.length 16
  · obtain ⟨t, tail, ⟨hrun, hresp⟩, hbytes, hcount⟩ := runs_pc1_short d z s hlt
    refine ⟨t, _, hrun, hresp, ?_, fun h => absurd h hlt.ne, fun _ => ?_, fun h => absurd h hlt.not_gt⟩
    · rw [List.length_append, silent_length, List.length_cons, hcount]
      omega
    · refine ⟨pc1_of_length_ne d z hlt.ne, bytes_of_failure hbytes, ?_, status_after_silent⟩
      rw [take_silent]
      exact silent_allOk _
  · obtain ⟨t, hrun, hresp⟩ := runs_pc1 d z s heq
    refine ⟨t, _, hrun, hresp, ?_, fun _ => ⟨sequence_allOk _ _, ?_⟩, fun h => absurd heq h.ne,
      fun h => absurd heq h.ne'⟩
    · simp only [List.length_append, silent_length, byteResponses, List.length_map, pc1Loop_length,
        List.length_singleton]
      omega
    · rw [pc1_of_key d z heq, sequence_bytes]
  · obtain ⟨first, b, rest, rfl, hfirst⟩ := exists_key_split hgt
    obtain ⟨t, hrun, hresp⟩ := runs_pc1_long d z b (rest := rest) s hfirst
    refine ⟨t, _, hrun, hresp, ?_, fun h => absurd h hgt.ne', fun h => absurd h hgt.not_gt, fun _ => ?_⟩
    · simp only [List.length_append, List.length_cons, silent_length, afterFailure_length, hfirst]
      omega
    · refine ⟨pc1_of_length_ne d z hgt.ne', bytes_of_failure (afterFailure_bytes _ _), ?_, status_after_silent⟩
      rw [take_silent]
      exact silent_allOk _

/-- The decrypting loop feeds back the bytes that the encrypting loop did (R172). -/
theorem pc1Loop_dec_enc (z : List Byte) (k : Source.KeystreamState) :
    Source.pc1Loop .dec (Source.pc1Loop .enc z k) k = z := by
  induction z generalizing k with
  | nil => rfl
  | cons b bs ih =>
    have hbyte : (b ^^^ mask (genOf k).q) ^^^ mask (genOf k).q = b := by
      rw [BitVec.xor_assoc, BitVec.xor_self, BitVec.xor_zero]
    rw [pc1Loop_cons, pc1Loop_cons, Source.plaintextByte, Source.plaintextByte, hbyte, ih]

/-- Settles O58: both sequences begin with the keystream state of the key. -/
theorem pc1RoundTrip : Obligations.Pc1RoundTrip := by
  intro key bytes s s' hlen
  obtain ⟨t, hrun, hresp⟩ := runs_pc1 .enc bytes s hlen
  obtain ⟨t', hrun', hresp'⟩ := runs_pc1 .dec (Source.pc1Loop .enc bytes (initialKeystream key)) s' hlen
  refine ⟨t, _, t', _, hrun, hresp, ?_, hresp', ?_, ?_⟩
  · rw [sequence_bytes]
    exact hrun'
  · exact allOk_append.2 ⟨sequence_allOk _ _, sequence_allOk _ _⟩
  · rw [sequence_bytes, pc1Loop_dec_enc]

/-! ## The `encrypt` sequence (R165, R169) -/

theorem wideTextToBytes_cons (u : Word) (text : List Word) :
    Source.wideTextToBytes (u :: text) = highByte u :: lowByte u :: Source.wideTextToBytes text := rfl

/-- The two steps of `SC_ENCU` put out what the loop puts out for the two bytes of the code unit. -/
theorem exec_scEncu_loop (u : Word) {s : State} (hr : Ready s) (hd : s.dir = .enc) :
    ∃ t bytes, exec (.scEncu u) s = .next t ∧ t.responses = s.responses ++ [⟨.ok, bytes⟩] ∧ Ready t ∧ t.dir = .enc ∧
      t.dpend = s.dpend ∧ ∀ text, bytes ++ Source.bytesToHex (Source.pc1Loop .enc text (keystreamOf t)) =
        Source.bytesToHex (Source.pc1Loop .enc (highByte u :: lowByte u :: text) (keystreamOf s)) := by
  obtain ⟨o0, s0, h0⟩ := exists_cipherSteps (highByte u) s
  obtain ⟨o1, s1, h1⟩ := exists_cipherSteps (lowByte u) s0
  refine ⟨respond .ok (hexPair o0 ++ hexPair o1) s1, hexPair o0 ++ hexPair o1, exec_scEncu hr hd h0.eq h1.eq, ?_, ?_,
    ?_, ?_, fun text => ?_⟩
  · rw [respond_responses, h1.responses, h0.responses]
  · exact (h1.ready (h0.ready hr)).respond _ _
  · rw [respond_dir, h1.dir, h0.dir, hd]
  · rw [respond_dpend, h1.dpend, h0.dpend]
  · rw [pc1Loop_cons, pc1Loop_cons, bytesToHex_cons, bytesToHex_cons, ← h0.out, keystreamOf_respond, h1.keystream,
      h0.dir, hd, ← List.append_assoc]
    have hkeys := h0.keystream
    rw [hd] at hkeys
    rw [← hkeys, ← h1.out]

theorem runs_scEncu (text : List Word) {s : State} (hr : Ready s) (hd : s.dir = .enc) :
    ∃ t rs, Runs (enctextCommands text) s t rs ∧ AllOk rs ∧ Ready t ∧ t.dpend = s.dpend ∧
      outputBytes rs = Source.bytesToHex (Source.pc1Loop .enc (Source.wideTextToBytes text) (keystreamOf s)) := by
  induction text generalizing s with
  | nil => exact ⟨s, [], .nil s, .nil, hr, rfl, rfl⟩
  | cons u us ih =>
    obtain ⟨v, bytes, hexec, hresp, hrv, hdv, hdpend, hloop⟩ := exec_scEncu_loop u hr hd
    obtain ⟨t, rs, ht, hok, hrt, hdt, hout⟩ := ih hrv hdv
    refine ⟨t, _, .cons hexec hresp ht, allOk_cons.2 ⟨rfl, hok⟩, hrt, hdt.trans hdpend, ?_⟩
    rw [outputBytes_cons, hout, wideTextToBytes_cons, hloop]

theorem runs_encrypt (text : List Word) {keyHex : List Word} {key : List Byte} (s : State)
    (hkey : Source.hexToBytes keyHex = .value key) (hlen : key.length = 16) :
    ∃ t rs, Runs (encryptCommands keyHex text) s t rs ∧ AllOk rs ∧ outputBytes rs =
      Source.bytesToHex (Source.pc1Loop .enc (Source.wideTextToBytes text) (initialKeystream key)) := by
  obtain ⟨u, hu, hloaded⟩ := runs_open_keyhex .enc s hkey hlen.le
  obtain ⟨v, rs, hv, hok, hr, hd, hout⟩ := runs_scEncu text (hloaded.ready hlen) hloaded.dir
  obtain ⟨t, ht⟩ := runs_scClose (s := v) (by rw [hr.1]; nofun)
  rw [closeStatus_ok_of_ready hr (hd.trans hloaded.noData.1)] at ht
  refine ⟨t, _, hu.append (hv.append ht), ?_, ?_⟩
  · exact allOk_append.2 ⟨silent_allOk _, allOk_append.2 ⟨hok, allOk_cons.2 ⟨rfl, .nil⟩⟩⟩
  · rw [outputBytes_append, outputBytes_append, silent_bytes, hout, hloaded.keystream]
    exact List.append_nil _

theorem encrypt_of_key (text : List Word) {keyHex : List Word} {key : List Byte}
    (hkey : Source.hexToBytes keyHex = .value key) (hlen : key.length = 16) : Source.encrypt text keyHex =
      .value (Source.bytesToHex (Source.pc1Loop .enc (Source.wideTextToBytes text) (initialKeystream key))) := by
  rw [Source.encrypt, hkey]
  simp only [pc1_of_key _ _ hlen]

/-- A key string of 32 digits is a key. -/
theorem key_of_digits {keyHex : List Word} (hlen : keyHex.length = 32)
    (hdigits : ∀ h ∈ keyHex, (hexVal h).isSome = true) :
    ∃ key, Source.hexToBytes keyHex = .value key ∧ key.length = 16 := by
  obtain ⟨key, hkey, hcount⟩ := hexToBytes_of_digits (by omega) hdigits
  exact ⟨key, hkey, by omega⟩

theorem wideTextToBytes_length (text : List Word) : (Source.wideTextToBytes text).length = 2 * text.length := by
  induction text with
  | nil => rfl
  | cons u us ih =>
    rw [wideTextToBytes_cons, List.length_cons, List.length_cons, ih, List.length_cons]
    omega

/-- Settles O55: the loop over the two bytes of each code unit, written as hex characters. -/
theorem commandSequenceIsEncrypt : Obligations.CommandSequenceIsEncrypt := by
  intro keyHex text s hlen hdigits
  obtain ⟨key, hkey, hcount⟩ := key_of_digits hlen hdigits
  obtain ⟨t, rs, ⟨hrun, hresp⟩, hok, hout⟩ := runs_encrypt text s hkey hcount
  refine ⟨t, rs, hrun, hresp, hok, ?_, ?_⟩
  · rw [encrypt_of_key text hkey hcount, hout]
  · rw [hout, bytesToHex_length, pc1Loop_length, wideTextToBytes_length]
    omega

/-! ## The `decrypt` sequence (R166, R170) -/

/-- The decrypted byte that waits for its partner. -/
def pendingHigh (s : State) : List Byte := if s.wpend then [s.whi] else []

/-- The bytes of the whole code units. -/
def unitBytes (bytes : List Byte) : List Byte := Source.wideTextToBytes (Source.bytesToWideText bytes)

theorem unitBytes_cons (a b : Byte) (bytes : List Byte) : unitBytes (a :: b :: bytes) = a :: b :: unitBytes bytes := by
  rw [unitBytes, Source.bytesToWideText, wideTextToBytes_cons, highByte_joinBytes, lowByte_joinBytes, unitBytes]

/-- A decrypted byte takes its place in a code unit, and the unit is put out when it is whole. -/
theorem pairCodeUnit_units (p : Byte) (s : State) : ∃ bytes,
    (pairCodeUnit p s).responses = s.responses ++ [⟨.ok, bytes⟩] ∧ (Ready s → Ready (pairCodeUnit p s)) ∧
      (pairCodeUnit p s).dir = s.dir ∧ (pairCodeUnit p s).dpend = s.dpend ∧
      keystreamOf (pairCodeUnit p s) = keystreamOf s ∧
      ∀ rest, bytes ++ unitBytes (pendingHigh (pairCodeUnit p s) ++ rest) = unitBytes (pendingHigh s ++ p :: rest) := by
  obtain ⟨hw, e⟩ | ⟨hw, e⟩ := pairCodeUnit_cases p s <;> rw [e]
  · refine ⟨[s.whi, p], rfl, id, rfl, rfl, rfl, fun rest => ?_⟩
    rw [pendingHigh, pendingHigh, hw]
    exact (unitBytes_cons s.whi p rest).symm
  · refine ⟨[], rfl, id, rfl, rfl, rfl, fun rest => ?_⟩
    rw [pendingHigh, pendingHigh, hw]
    rfl

/-- Two digits of `SC_DECH` decrypt one byte. -/
theorem runs_scDech_pair {h l : Word} {a b : Nibble} {s : State} (hr : Ready s) (hd : s.dir = .dec)
    (hp : s.dpend = false) (ha : hexVal h = some a) (hb : hexVal l = some b) :
    ∃ t bytes, Runs [.scDech h, .scDech l] s t [⟨.ok, []⟩, ⟨.ok, bytes⟩] ∧ Ready t ∧ t.dir = .dec ∧ t.dpend = false ∧
      ∀ z, bytes ++ unitBytes (pendingHigh t ++ Source.pc1Loop .dec z (keystreamOf t)) =
        unitBytes (pendingHigh s ++ Source.pc1Loop .dec (joinNibbles a b :: z) (keystreamOf s)) := by
  obtain ⟨p, v, hstep⟩ := exists_cipherSteps (joinNibbles a b) (respond .ok [] { s with dhi := a, dpend := false })
  obtain ⟨bytes, hresp, hready, hdir, hdpend, hkeys, hunits⟩ := pairCodeUnit_units p v
  have hv : Ready v := hstep.ready hr
  have hpending : pendingHigh v = pendingHigh s := by
    rw [pendingHigh, hstep.wpend, hstep.whi, respond_wpend, respond_whi, pendingHigh]
  have hnext : keystreamOf v = nextKeystream p (keystreamOf s) := by
    rw [hstep.keystream, respond_dir, hd]
    rfl
  have hfirst := exec_scDech_first hr hd ha hp
  have hsecond : exec (.scDech l) (respond .ok [] { s with dhi := a, dpend := true }) = .next (pairCodeUnit p v) :=
    exec_scDech_second hr hd hb rfl hstep.eq
  refine ⟨_, bytes, .cons hfirst rfl (.single hsecond ?_), hready hv, ?_, ?_, fun z => ?_⟩
  · rw [hresp, hstep.responses]
    rfl
  · rw [hdir, hstep.dir, respond_dir, hd]
  · rw [hdpend, hstep.dpend, respond_dpend]
  · have hout : p = joinNibbles a b ^^^ mask (genOf (keystreamOf s)).q := hstep.out
    rw [hunits, hpending, hkeys, hnext, pc1Loop_cons, ← hout, Source.plaintextByte]

theorem unitBytes_pending (s : State) : unitBytes (pendingHigh s ++ []) = [] := by
  rw [pendingHigh]
  split_ifs <;> rfl

theorem runs_scDech : ∀ {chars : List Word} {z : List Byte} {s : State}, Source.hexToBytes chars = .value z →
    Ready s → s.dir = .dec → s.dpend = false → ∃ t rs, Runs (dechexCommands chars) s t rs ∧ AllOk rs ∧ Ready t ∧
      t.dpend = false ∧ outputBytes rs = unitBytes (pendingHigh s ++ Source.pc1Loop .dec z (keystreamOf s))
  | [], _, s, hv, hr, _, hp => by
    obtain rfl := Source.Result.value.inj hv
    exact ⟨s, [], .nil s, .nil, hr, hp, (unitBytes_pending s).symm⟩
  | [_], _, _, hv, _, _, _ => by cases hv
  | h :: l :: rest, _, s, hv, hr, hd, hp => by
    obtain ⟨a, b, z, ha, hb, hrest, rfl⟩ := hexToBytes_pair_cases hv
    obtain ⟨u, bytes, hu, hru, hdu, hpu, hloop⟩ := runs_scDech_pair hr hd hp ha hb
    obtain ⟨t, rs, ht, hok, hrt, hpt, hout⟩ := runs_scDech hrest hru hdu hpu
    refine ⟨t, _, hu.append ht, allOk_cons.2 ⟨rfl, allOk_cons.2 ⟨rfl, hok⟩⟩, hrt, hpt, ?_⟩
    rw [outputBytes_append, hout, ← hloop]
    simp [outputBytes]

theorem runs_decrypt {keyHex cipherHex : List Word} {key z : List Byte} (s : State)
    (hkey : Source.hexToBytes keyHex = .value key) (hlen : key.length = 16)
    (hz : Source.hexToBytes cipherHex = .value z) : ∃ t rs, Runs (decryptCommands keyHex cipherHex) s t rs ∧
      AllOk rs ∧ outputBytes rs = unitBytes (Source.pc1Loop .dec z (initialKeystream key)) := by
  obtain ⟨u, hu, hloaded⟩ := runs_open_keyhex .dec s hkey hlen.le
  obtain ⟨hdpend, hwpend⟩ := hloaded.noData
  obtain ⟨v, rs, hv, hok, hr, hd, hout⟩ := runs_scDech hz (hloaded.ready hlen) hloaded.dir hdpend
  obtain ⟨t, ht⟩ := runs_scClose (s := v) (by rw [hr.1]; nofun)
  rw [closeStatus_ok_of_ready hr hd] at ht
  have hpending : pendingHigh u = [] := by rw [pendingHigh, if_neg (ne_true_of_eq_false hwpend)]
  refine ⟨t, _, hu.append (hv.append ht), ?_, ?_⟩
  · exact allOk_append.2 ⟨silent_allOk _, allOk_append.2 ⟨hok, allOk_cons.2 ⟨rfl, .nil⟩⟩⟩
  · rw [outputBytes_append, outputBytes_append, silent_bytes, hout, hpending, hloaded.keystream]
    exact List.append_nil _

theorem decrypt_of_key {keyHex cipherHex : List Word} {key z : List Byte}
    (hkey : Source.hexToBytes keyHex = .value key) (hlen : key.length = 16)
    (hz : Source.hexToBytes cipherHex = .value z) : Source.decrypt cipherHex keyHex =
      .value (Source.bytesToWideText (Source.pc1Loop .dec z (initialKeystream key))) := by
  rw [Source.decrypt, hz, hkey]
  simp only [pc1_of_key _ _ hlen]

/-- Settles O56: the loop over the bytes of the ciphertext, each whole code unit as two bytes. -/
theorem commandSequenceIsDecrypt : Obligations.CommandSequenceIsDecrypt := by
  intro keyHex cipherHex s hlen hdigits heven hcipher
  obtain ⟨key, hkey, hcount⟩ := key_of_digits hlen hdigits
  obtain ⟨z, hz, -⟩ := hexToBytes_of_digits heven hcipher
  obtain ⟨t, rs, ⟨hrun, hresp⟩, hok, hout⟩ := runs_decrypt s hkey hcount hz
  exact ⟨t, rs, _, hrun, hresp, hok, decrypt_of_key hkey hcount hz, hout⟩

theorem unitBytes_wideTextToBytes (text : List Word) :
    unitBytes (Source.wideTextToBytes text) = Source.wideTextToBytes text := by
  induction text with
  | nil => rfl
  | cons u us ih => rw [wideTextToBytes_cons, unitBytes_cons, ih]

/-- Settles O59: the hex characters are read back, and the decrypting loop undoes the encrypting one. -/
theorem wideTextRoundTrip : Obligations.WideTextRoundTrip := by
  intro keyHex text s s' hlen hdigits
  obtain ⟨key, hkey, hcount⟩ := key_of_digits hlen hdigits
  obtain ⟨t, rs, ⟨hrun, hresp⟩, hok, hout⟩ := runs_encrypt text s hkey hcount
  have hz := hexToBytes_bytesToHex (Source.pc1Loop .enc (Source.wideTextToBytes text) (initialKeystream key))
  rw [← hout] at hz
  obtain ⟨t', rs', ⟨hrun', hresp'⟩, hok', hout'⟩ := runs_decrypt s' hkey hcount hz
  refine ⟨t, rs, t', rs', hrun, hresp, hrun', hresp', allOk_append.2 ⟨hok, hok'⟩, ?_⟩
  rw [hout', pc1Loop_dec_enc, unitBytes_wideTextToBytes]
  rfl

end Sys2Proof.Machine

/-!
Proofs: the sequences fail exactly when the source does (43_stream_cipher_executor.md section 6, R171). A sequence
without an error has read a key of 16 bytes, and a decrypting one a hex string, because `SC_CLOSE` checks both.
-/

namespace Sys2Proof.Machine

/-! ## What a run keeps -/

/-- A value that every command of the list keeps. -/
theorem Runs.keeps {β : Type} (f : State → β) : ∀ {is : List Instr} {s t : State} {rs : List Response},
    (∀ i ∈ is, ∀ s t, exec i s = .next t → f t = f s) → Runs is s t rs → f t = f s
  | [], _, _, _, _, h => by rw [h.eq_of_nil.1]
  | i :: rest, s, t, _, hstep, h => by
    obtain ⟨u, r, rs', hexec, -, -, hrest⟩ := Runs.of_cons h
    obtain ⟨hi, hrest'⟩ := List.forall_mem_cons.1 hstep
    exact (Runs.keeps f hrest' hrest).trans (hi s u hexec)

theorem isData_not_mem {op : Opcode} (h : isData op = true) :
    op ∉ [.ksKeyb, .scKeyhex, .scOpen, .scClose] ∧ op ∉ [.scKeyhex, .scOpen, .scClose] := by
  revert h
  cases op <;> decide

theorem exec_keeps_key {i : Instr} (hi : isData i.opcode = true) {s t : State} (h : exec i s = .next t) :
    t.keycnt = s.keycnt ∧ t.kpend = s.kpend := by
  obtain ⟨-, -, -, -, hkeycnt, hkpend, -⟩ := registersWrittenOnlyByTheirCommands i s t h
  obtain ⟨hlist, hlist'⟩ := isData_not_mem hi
  exact ⟨hkeycnt hlist, (hkpend hlist').1⟩

theorem exec_scKeyhex_keeps_dpend {h : Word} {s t : State} (hexec : exec (.scKeyhex h) s = .next t) :
    t.dpend = s.dpend := by
  obtain ⟨-, -, -, -, -, -, hdata, -⟩ := registersWrittenOnlyByTheirCommands _ s t hexec
  exact (hdata (show Opcode.scKeyhex ∉ _ by decide)).1

theorem opened_of_allOk {d : Direction} {is : List Instr} {s t : State} {rs : List Response} (hs : s.sess = .opened)
    (hd : s.dir = d) (hi : ∀ i ∈ is, InSession d i) (h : Runs is s t rs) (hok : AllOk rs) :
    t.sess = .opened ∧ t.dir = d := by
  refine ⟨?_, (h.keeps State.dir fun i hmem _ _ hexec => dir_of_inSession (hi i hmem) hexec).trans hd⟩
  obtain ⟨ht, -⟩ | ⟨-, -, hfirst⟩ := runs_inSession hs hd hi h
  · exact ht
  · exact absurd hok (not_allOk_of_firstFailure hfirst)

/-! ## Digits read without an error -/

theorem not_fails_of_ok {i : Instr} {s t : State} {code : Status} {bytes : List Byte} (h : Fails i s code)
    (hcode : code ≠ .ok) (hexec : exec i s = .next t) (hr : t.responses = s.responses ++ [⟨.ok, bytes⟩]) : False := by
  obtain rfl := Host.Outcome.next.inj (h.symm.trans hexec)
  simp [hcode] at hr

/-- A command that fails on any other character has read a digit when it returns OK. -/
theorem digit_of_ok {i : Instr} {h : Word} {s t : State} {bytes : List Byte}
    (hbad : hexVal h = none → Fails i s .eHex) (hexec : exec i s = .next t)
    (hr : t.responses = s.responses ++ [⟨.ok, bytes⟩]) : ∃ v, hexVal h = some v := by
  cases hv : hexVal h with
  | none => exact (not_fails_of_ok (hbad hv) (by decide) hexec hr).elim
  | some v => exact ⟨v, rfl⟩

theorem readsDigits_scKeyhex : ReadsDigits .scKeyhex State.kpend
    fun n s => s.sess = .opened ∧ s.keycnt.toNat = n ∧ n ≤ 16 where
  first := by
    rintro n h s t bytes ⟨hs, hn, hle⟩ hp hexec hr
    obtain ⟨v, hv⟩ := digit_of_ok (scKeyhex_fails_of_undefined hs) hexec hr
    obtain rfl := Host.Outcome.next.inj ((exec_scKeyhex_first hs hv hp).symm.trans hexec)
    exact ⟨Option.isSome_of_eq_some hv, ⟨hs, hn, hle⟩, rfl⟩
  second := by
    rintro n h s t bytes ⟨hs, hn, hle⟩ hp hexec hr
    obtain ⟨v, hv⟩ := digit_of_ok (scKeyhex_fails_of_undefined hs) hexec hr
    by_cases hk : s.keycnt = 16
    · exact (not_fails_of_ok (scKeyhex_fails_of_full hs hv hp hk) (by decide) hexec hr).elim
    · obtain rfl := Host.Outcome.next.inj ((exec_scKeyhex_second hs hv hp hk).symm.trans hexec)
      obtain ⟨hlt, hnext⟩ := keycnt_add_one (hn ▸ hle) hk
      exact ⟨Option.isSome_of_eq_some hv, ⟨hs, hnext.trans (congrArg (· + 1) hn), by omega⟩, rfl⟩

theorem readsDigits_scDech : ReadsDigits .scDech State.dpend fun _ s => Ready s ∧ s.dir = .dec where
  first := by
    rintro n h s t bytes ⟨hready, hd⟩ hp hexec hr
    obtain ⟨v, hv⟩ := digit_of_ok (scDech_fails_of_undefined hready hd) hexec hr
    obtain rfl := Host.Outcome.next.inj ((exec_scDech_first hready hd hv hp).symm.trans hexec)
    exact ⟨Option.isSome_of_eq_some hv, ⟨hready, hd⟩, rfl⟩
  second := by
    rintro n h s t bytes ⟨hready, hd⟩ hp hexec hr
    obtain ⟨v, hv⟩ := digit_of_ok (scDech_fails_of_undefined hready hd) hexec hr
    obtain ⟨p, u, hstep⟩ := exists_cipherSteps (joinNibbles s.dhi v) { s with dpend := false }
    obtain rfl := Host.Outcome.next.inj ((exec_scDech_second hready hd hv hp hstep.eq).symm.trans hexec)
    obtain ⟨-, -, hkeeps, hdir, hdpend, -, -⟩ := pairCodeUnit_units p u
    exact ⟨Option.isSome_of_eq_some hv, ⟨hkeeps (hstep.ready hready), hdir.trans (hstep.dir.trans hd)⟩,
      hdpend.trans hstep.dpend⟩

/-! ## A sequence without an error -/

theorem inSession_keyhex (d : Direction) (chars : List Word) : ∀ i ∈ keyhexCommands chars, InSession d i :=
  List.forall_mem_map.2 fun _ _ => ⟨rfl, nofun⟩

/-- `SC_CLOSE` without an error after a key string and data commands: the key string is a key, and the data part ran in
a ready session and left no digit pending. -/
theorem key_of_allOk {d : Direction} {keyHex : List Word} {data : List Instr} {s t : State} {rs : List Response}
    (hdata : ∀ i ∈ data, InSession d i ∧ isData i.opcode = true)
    (h : Runs (.scOpen d :: (keyhexCommands keyHex ++ (data ++ [.scClose]))) s t rs) (hok : AllOk rs) :
    (∃ key, Source.hexToBytes keyHex = .value key ∧ key.length = 16) ∧
      ∃ u v rs', Ready u ∧ u.dir = d ∧ u.dpend = false ∧ Runs data u v rs' ∧ AllOk rs' ∧ v.dpend = false := by
  obtain ⟨o, r, rs₀, ho, -, rfl, hrest⟩ := Runs.of_cons h
  obtain rfl := Host.Outcome.next.inj ((exec_scOpen d s).symm.trans ho)
  obtain ⟨u, rs₁, rs₂, rfl, hkeys, hrest'⟩ := Runs.of_append hrest
  obtain ⟨v, rs₃, rs₄, rfl, hrun, hclose⟩ := Runs.of_append hrest'
  obtain ⟨w, r', rs₅, hw, hr', rfl, -⟩ := Runs.of_cons hclose
  obtain ⟨hok₁, hok₂⟩ := allOk_append.1 (allOk_cons.1 hok).2
  obtain ⟨hok₃, hok₄⟩ := allOk_append.1 hok₂
  obtain ⟨hu, hdu⟩ := opened_of_allOk rfl rfl (inSession_keyhex d keyHex) hkeys hok₁
  obtain ⟨hv, -⟩ := opened_of_allOk hu hdu (fun i hi => (hdata i hi).1) hrun hok₃
  have hstatus : closeStatus v = .ok := by
    obtain rfl := Host.Outcome.next.inj ((exec_scClose_of_session (by rw [hv]; nofun)).symm.trans hw)
    obtain rfl : r' = ⟨closeStatus v, []⟩ := by simpa [eq_comm] using hr'
    exact (allOk_cons.1 hok₄).1
  obtain ⟨⟨-, hkpend, hkeycnt⟩, hdpend⟩ := ready_of_closeStatus hv hstatus
  have hkeycnt' : v.keycnt = u.keycnt := hrun.keeps _ fun i hi _ _ hexec => (exec_keeps_key (hdata i hi).2 hexec).1
  have hkpend' : v.kpend = u.kpend := hrun.keeps _ fun i hi _ _ hexec => (exec_keeps_key (hdata i hi).2 hexec).2
  rw [hkeycnt'] at hkeycnt
  rw [hkpend'] at hkpend
  have hdu' : u.dpend = false := hkeys.keeps State.dpend fun i hi _ _ hexec => by
    obtain ⟨c, -, rfl⟩ := List.mem_map.1 hi
    exact exec_scKeyhex_keeps_dpend hexec
  obtain ⟨key, hkey, -, hcount, -⟩ :=
    readsDigits_scKeyhex.hexToBytes (n := 0) ⟨rfl, rfl, Nat.zero_le _⟩ rfl hkeys hok₁ hkpend
  rw [hkeycnt, Nat.zero_add] at hcount
  exact ⟨⟨key, hkey, hcount.symm⟩, u, v, rs₃, ⟨hu, hkpend, hkeycnt⟩, hdu, hdu', hrun, hok₃, hdpend⟩

theorem inSession_enctext (text : List Word) :
    ∀ i ∈ enctextCommands text, InSession .enc i ∧ isData i.opcode = true :=
  List.forall_mem_map.2 fun _ _ => ⟨⟨rfl, fun _ => Option.some.inj⟩, rfl⟩

theorem inSession_dechex (chars : List Word) :
    ∀ i ∈ dechexCommands chars, InSession .dec i ∧ isData i.opcode = true :=
  List.forall_mem_map.2 fun _ _ => ⟨⟨rfl, fun _ => Option.some.inj⟩, rfl⟩

/-! ## When the source succeeds (R171) -/

theorem encrypt_succeeds_iff {text keyHex : List Word} : (∃ out, Source.encrypt text keyHex = .value out) ↔
    ∃ key, Source.hexToBytes keyHex = .value key ∧ key.length = 16 := by
  constructor
  · rintro ⟨out, h⟩
    cases hkey : Source.hexToBytes keyHex with
    | error e => simp [Source.encrypt, hkey] at h
    | value key =>
      refine ⟨key, rfl, ?_⟩
      by_contra hlen
      simp [Source.encrypt, hkey, pc1_of_length_ne _ _ hlen] at h
  · rintro ⟨key, hkey, hlen⟩
    exact ⟨_, encrypt_of_key text hkey hlen⟩

theorem decrypt_succeeds_iff {cipherHex keyHex : List Word} :
    (∃ text, Source.decrypt cipherHex keyHex = .value text) ↔
      (∃ key, Source.hexToBytes keyHex = .value key ∧ key.length = 16) ∧
        ∃ z, Source.hexToBytes cipherHex = .value z := by
  constructor
  · rintro ⟨text, h⟩
    cases hz : Source.hexToBytes cipherHex with
    | error e => simp [Source.decrypt, hz] at h
    | value z =>
      refine ⟨?_, z, rfl⟩
      cases hkey : Source.hexToBytes keyHex with
      | error e => simp [Source.decrypt, hz, hkey] at h
      | value key =>
        refine ⟨key, rfl, ?_⟩
        by_contra hlen
        simp [Source.decrypt, hz, hkey, pc1_of_length_ne _ _ hlen] at h
  · rintro ⟨⟨key, hkey, hlen⟩, z, hz⟩
    exact ⟨_, decrypt_of_key hkey hlen hz⟩

/-- Every command of the sequence returns OK exactly when the claim holds, and else `SC_CLOSE` repeats the first
failure. -/
def ReportsFailure (is : List Instr) (s : State) (claim : Prop) : Prop := ∃ t rs st, Runs is s t (rs ++ [⟨st, []⟩]) ∧
  (AllOk (rs ++ [⟨st, []⟩]) ↔ claim) ∧
  (¬ claim → (st = .eHex ∨ st = .eKeylen) ∧ firstFailure (rs ++ [⟨st, []⟩]) = some st)

theorem reportsFailure_session {d : Direction} {cmds is : List Instr} {s : State} {claim : Prop}
    (hcmds : cmds = .scOpen d :: (is ++ [.scClose])) (hi : ∀ i ∈ is, InSession d i)
    (hsucceeds : claim → ∃ t rs, Runs cmds s t rs ∧ AllOk rs) (hclaim : ∀ t rs, Runs cmds s t rs → AllOk rs → claim) :
    ReportsFailure cmds s claim := by
  obtain ⟨t, rs, st, hrun, hok, hbad⟩ := runs_session s hi
  rw [← hcmds] at hrun
  refine ⟨t, rs, st, hrun, ⟨hclaim t _ hrun, fun hc => ?_⟩, fun hc => hbad fun hst => hc (hclaim t _ hrun (hok hst))⟩
  obtain ⟨t', rs', hrun', hok'⟩ := hsucceeds hc
  rwa [(hrun.unique hrun').2]

theorem encrypt_reportsFailure (keyHex text : List Word) (s : State) :
    ReportsFailure (encryptCommands keyHex text) s (∃ out, Source.encrypt text keyHex = .value out) := by
  refine reportsFailure_session (is := keyhexCommands keyHex ++ enctextCommands text)
    (by rw [encryptCommands, List.append_assoc]) (List.forall_mem_append.2 ⟨inSession_keyhex .enc keyHex,
      fun i hi => (inSession_enctext text i hi).1⟩) (fun hc => ?_) fun t rs hrun hok => ?_
  · obtain ⟨key, hkey, hlen⟩ := encrypt_succeeds_iff.1 hc
    obtain ⟨t, rs, hrun, hok, -⟩ := runs_encrypt text s hkey hlen
    exact ⟨t, rs, hrun, hok⟩
  · exact encrypt_succeeds_iff.2 (key_of_allOk (inSession_enctext text) hrun hok).1

theorem decrypt_reportsFailure (keyHex cipherHex : List Word) (s : State) :
    ReportsFailure (decryptCommands keyHex cipherHex) s (∃ text, Source.decrypt cipherHex keyHex = .value text) := by
  refine reportsFailure_session (is := keyhexCommands keyHex ++ dechexCommands cipherHex)
    (by rw [decryptCommands, List.append_assoc]) (List.forall_mem_append.2 ⟨inSession_keyhex .dec keyHex,
      fun i hi => (inSession_dechex cipherHex i hi).1⟩) (fun hc => ?_) fun t rs hrun hok => ?_
  · obtain ⟨⟨key, hkey, hlen⟩, z, hz⟩ := decrypt_succeeds_iff.1 hc
    obtain ⟨t, rs, hrun, hok, -⟩ := runs_decrypt s hkey hlen hz
    exact ⟨t, rs, hrun, hok⟩
  · obtain ⟨hkey, u, v, rs', hr, hd, hp, hrun', hok', hpv⟩ := key_of_allOk (inSession_dechex cipherHex) hrun hok
    obtain ⟨z, hz, -⟩ := readsDigits_scDech.hexToBytes (n := 0) ⟨hr, hd⟩ hp hrun' hok' hpv
    exact decrypt_succeeds_iff.2 ⟨hkey, z, hz⟩

/-- Settles O57: the checks of the session are those of the source, and `SC_CLOSE` repeats the first failure. -/
theorem sequencesFailWhenTheSourceFails : Obligations.SequencesFailWhenTheSourceFails := by
  refine ⟨fun keyHex text s => ?_, fun keyHex cipherHex s => ?_⟩
  · obtain ⟨t, rs, st, ⟨hrun, hresp⟩, hok, hbad⟩ := encrypt_reportsFailure keyHex text s
    exact ⟨t, rs, st, hrun, hresp, hok, fun e he => hbad fun ⟨out, hout⟩ => by rw [he] at hout; cases hout⟩
  · obtain ⟨t, rs, st, ⟨hrun, hresp⟩, hok, hbad⟩ := decrypt_reportsFailure keyHex cipherHex s
    exact ⟨t, rs, st, hrun, hresp, hok, fun e he => hbad fun ⟨out, hout⟩ => by rw [he] at hout; cases hout⟩

end Sys2Proof.Machine
